-- ==== Sys2Proof/Word.lean ====
section
/-! DEFINITION. The word and byte types of the engine (00_scope R12, R13). Every operation on them that a rule of the
spec defines stands in Machine/Arith.lean. -/

namespace Sys2Proof

/-- A byte: 8 bits, 0 to 255 (R12). -/
abbrev Byte := BitVec 8

/-- A word: 32 bits, bit 0 the least significant, unsigned (R12). -/
abbrev Word := BitVec 32

/-- A byte string, byte 0 first (R13): `IN`, `OUT`, keys, blocks and messages. -/
abbrev Bytes := List Byte

end Sys2Proof
end

