-- ==== Sys2Proof/Config.lean ====
section
/-! DEFINITION. What is fixed for one engine and left OPEN by the spec (00_scope R9; 92_eei_decisions D11, D12, D13, D18),
and the names its configuration registers hold (10_state R27). Every OPEN parameter is an opaque constant: no proof can
see a value of it, so a theorem holds for every instance. -/

namespace Sys2Proof

/-- The four external block ciphers, `ALG` codes 0 to 3 (R27, R73). -/
inductive ExternalCipher where
  | des
  | deal
  | rc5
  | rijndael
  deriving DecidableEq, Repr, Inhabited

/-- The `BlockCipher` variants the register `ALG` can hold (R27): an external cipher, or MARS (code 4). -/
inductive Alg where
  | external (c : ExternalCipher)
  | mars
  deriving DecidableEq, Repr, Inhabited

/-- The chaining modes the register `MODE` can hold (R27). RANDOM_DELTA is no member: CFG refuses its code (R266). -/
inductive Mode where
  | ecb
  | cbc
  | pcbc
  | cfb
  | ofb
  | ctr
  deriving DecidableEq, Repr, Inhabited

/-- The padding schemes the register `PAD` can hold (R27). -/
inductive Padding where
  | pkcs7
  | ansiX923
  | iso10126
  | zeros
  deriving DecidableEq, Repr, Inhabited

/-- The S-box store: 512 words under a 9-bit index (10_state R32). -/
abbrev SBox := BitVec 9 → Word

/-- The parameter record of one external cipher (47_external_ciphers R290). The type `XKty` of the expanded key is taken
as byte strings, which loses no instance (log 8). The proof fields are the contract of R290: block sizes 1 to 255,
`enc` and `dec` map blocks of `bs` bytes to blocks of `bs` bytes, and the one assumed law. -/
structure ExtCipher where
  bs : Nat
  keyOk : Bytes → Bool
  expand : Bytes → Bytes
  enc : Bytes → Bytes → Bytes
  dec : Bytes → Bytes → Bytes
  bs_pos : 1 ≤ bs
  bs_le : bs ≤ 255
  enc_length : ∀ xk b, b.length = bs → (enc xk b).length = bs
  dec_length : ∀ xk b, b.length = bs → (dec xk b).length = bs
  dec_enc : ∀ key b, keyOk key = true → b.length = bs → dec (expand key) (enc (expand key) b) = b

/-- The construction parameters of RC5: `RC5_W`, `RC5_R`, `RC5_B` (R295). -/
structure Rc5Params where
  wordSize : Nat
  roundCount : Nat
  keyLength : Nat
  deriving DecidableEq, Repr, Inhabited

/-- `RIJNDAEL_VARIANT` (R295): the default the source calls AES-128, or another variant, under a number (log 10). -/
inductive RijndaelVariant where
  | aes128
  | other (id : Nat)
  deriving DecidableEq, Repr, Inhabited

/-- `SBOX`, OPEN (R9, R32, D11). No property of its entries is assumed. -/
opaque Config.sbox : SBox

/-- The parameters RC5 is instantiated with, OPEN (R295). -/
opaque Config.rc5Params : Rc5Params

/-- The variant Rijndael is instantiated with, OPEN (R295). -/
opaque Config.rijndaelVariant : RijndaelVariant

/-- `EXT[DES]`, absent or a record, OPEN (R290). -/
opaque Config.des : Option ExtCipher

/-- `EXT[DEAL]`, absent or a record, OPEN (R290, R296). -/
opaque Config.deal : Option ExtCipher

/-- `EXT[RC5]` for each choice of its construction parameters, OPEN (R290, R295). -/
opaque Config.rc5 : Rc5Params → Option ExtCipher

/-- `EXT[RIJNDAEL]` for each variant, OPEN (R290, R295). -/
opaque Config.rijndael : RijndaelVariant → Option ExtCipher

/-- `EXT[alg]` for the four external ciphers (R290): fixed at instantiation, changed by no command (R295). -/
def Config.ext : ExternalCipher → Option ExtCipher
  | .des => Config.des
  | .deal => Config.deal
  | .rc5 => Config.rc5 Config.rc5Params
  | .rijndael => Config.rijndael Config.rijndaelVariant

/-- `FACTORY_EXPOSES_MARS`, OPEN (R85, D13). -/
opaque Config.factoryExposesMars : Bool

/-- The draws of `RNG`, OPEN and under no law (R318, D18): byte `k` that the random source supplies. The state counts the
bytes drawn, so every draw takes a byte of its own (log 6). -/
opaque Config.rng : Nat → Byte

end Sys2Proof
end

