-- ==== Sys2Proof/Machine/State.lean ====
section
/-! DEFINITION. The state of the engine (10_state R20 to R40) as plain data, the transaction it answers (30_encoding R70),
the reasons a step can stop, and the state after reset (R37, R330). -/

namespace Sys2Proof.Machine

/-- A command of the host: a 32-bit command word and an operand byte string of any finite length (R70). -/
structure Command where
  /-- `CW`. -/
  word : Word
  /-- `IN`. -/
  operand : Bytes
  deriving DecidableEq, Repr

/-- A response: the 8-bit status code and the result byte string (R70, R82). -/
structure Response where
  /-- `ST`. -/
  st : Byte
  /-- `OUT`. -/
  out : Bytes
  deriving DecidableEq, Repr

/-- The forty subkeys `K[0..39]` (R21). -/
abbrev Subkeys := Vector Word 40

/-- The state between two commands (R36), with the transaction in progress. The six registers that the spec lets lose
their value are options, as R37 asks ("an option type guarded by the flag"); log 3. -/
structure State where
  /-- `CFGD`, configured (R26). -/
  cfgd : Bool
  /-- `INITED`, key expanded (R26). -/
  inited : Bool
  /-- `IVV`, IV valid (R26). -/
  ivv : Bool
  /-- `ALG`, held as the name its code stands for (R27; log 12). -/
  alg : Option Alg
  /-- `MODE`, held as the name its code stands for (R27; log 12). -/
  mode : Option Mode
  /-- `PAD`, held as the name its code stands for (R27; log 12). -/
  pad : Option Padding
  /-- `K[0..39]`, the MARS subkeys (R21). -/
  k : Option Subkeys
  /-- `XK`, the expanded key of an external cipher (R31), as a byte string (log 8). -/
  xk : Option Bytes
  /-- `IV[0..BS-1]` (R30). -/
  iv : Option Bytes
  /-- The model's own count of the bytes RNG has supplied (R318; log 6). -/
  draws : Nat
  /-- The commands the host is still to issue, oldest first (R70; log 1). -/
  commands : List Command
  /-- `IN` of the command in progress, empty between commands (R13, R70; log 4). -/
  input : Bytes
  /-- The response to the last command, if one was answered (R70). -/
  response : Option Response
  deriving DecidableEq, Repr

/-- The registers that can hold no value (R18, R37). -/
inductive Register where
  | alg
  | mode
  | pad
  | k
  | xk
  | iv
  deriving DecidableEq, Repr

/-- Why the machine stops. The spec's five errors are no faults: they are responses, and the engine goes on (R306). -/
inductive Fault where
  /-- A command would read a register that holds no value although its flag says it does. Raised by the guards of
  Machine/Flags.lean and Machine/Cipher.lean, in incoherent states only, which no run reaches (R37). Safe. -/
  | noValue (r : Register)
  /-- `ALG` names an external cipher whose record is absent. CFG refuses to set such an `ALG` (R293), so no run reaches it.
  Raised by the guards of Machine/Flags.lean and Machine/Cipher.lean and by INIT. Safe. -/
  | absentCipher (c : ExternalCipher)
  deriving DecidableEq, Repr

/-- Why the machine has no meaning for a command. -/
inductive Refusal where
  /-- An arm of `exec` that has no meaning yet. No arm raises it: every command of the table is modelled. Safe. -/
  | notModelled (mnemonic : String)
  deriving DecidableEq, Repr

/-- The machine right after power-on reset: the three flags 0 and the six registers without value (R37, R330); the model's
own fields empty (log 5). -/
def State.reset : State where
  cfgd := false
  inited := false
  ivv := false
  alg := none
  mode := none
  pad := none
  k := none
  xk := none
  iv := none
  draws := 0
  commands := []
  input := []
  response := none

end Sys2Proof.Machine
end

