-- ==== Sys2Proof/Machine/Ops.lean ====
section
/-! DEFINITION. The named operations over the state: answering a command, `raise` (the one way a command fails,
60_exceptions R306), the register updates of the commands (10_state R38), and the draws of RNG (R318). -/

namespace Sys2Proof.Machine

/-- The outcome of one command. -/
abbrev Result := Host.Outcome State Fault Refusal

/-- The five error kinds (60_exceptions R300 to R304). -/
inductive Error where
  | invalidKey
  | invalidBlockSize
  | uninitializedCipher
  | unsupportedConfiguration
  | padding
  deriving DecidableEq, Repr

/-- The status code of success (30_encoding R82). -/
def okCode : Byte := 0x00

/-- The status code of an error (30_encoding R82). -/
def Error.code : Error → Byte
  | .invalidKey => 0x01
  | .invalidBlockSize => 0x02
  | .uninitializedCipher => 0x03
  | .unsupportedConfiguration => 0x04
  | .padding => 0x05

/-- The engine takes a command: its operand string becomes `IN`, and `rest` is what the host is still to issue (R70). -/
def State.accept (c : Command) (rest : List Command) (s : State) : State :=
  { s with commands := rest, input := c.operand }

/-- The engine answers the command in progress with `(ST, OUT)`; `IN` is gone with it (R70). -/
def State.respond (st : Byte) (out : Bytes) (s : State) : State :=
  { s with input := [], response := some ⟨st, out⟩ }

/-- `ST <- OK; OUT <- out`. -/
def State.succeed (out : Bytes) (s : State) : State := s.respond okCode out

/-- `raise e`: no architectural state is written or cleared, `OUT` is empty, `ST` is the code of `e` (R306, R305). -/
def State.raise (e : Error) (s : State) : State := s.respond e.code []

/-- What RESET does to the registers: the flags cleared, the six registers without value (R120). -/
def State.clear (s : State) : State :=
  { s with cfgd := false, inited := false, ivv := false, alg := none, mode := none, pad := none, k := none, xk := none, iv := none }

/-- What a successful CFG does to the registers: a new configuration, with no key and no IV (R121, R29). -/
def State.configure (alg : Alg) (mode : Mode) (pad : Padding) (s : State) : State :=
  { s with cfgd := true, inited := false, ivv := false, alg := some alg, mode := some mode, pad := some pad, k := none, xk := none, iv := none }

/-- `K[0..39] <- K; INITED <- 1` (R123). -/
def State.loadSubkeys (K : Subkeys) (s : State) : State := { s with k := some K, inited := true }

/-- `XK <- xk; INITED <- 1` (R123). -/
def State.loadExternalKey (xk : Bytes) (s : State) : State := { s with xk := some xk, inited := true }

/-- `IV <- iv; IVV <- 1` (R125). -/
def State.loadIv (iv : Bytes) (s : State) : State := { s with iv := some iv, ivv := true }

/-- The bytes `draw(n)` supplies: each a free value of its own (R14, R318; log 6). -/
def State.drawn (n : Nat) (s : State) : Bytes := (List.range n).map fun k => Config.rng (s.draws + k)

/-- RNG has supplied `n` more bytes (log 6). -/
def State.advanceDraws (n : Nat) (s : State) : State := { s with draws := s.draws + n }

/-- Is the algorithm one this engine has: MARS always, an external cipher if its record is present (R121, R293). -/
def algPresent : Alg → Bool
  | .mars => true
  | .external c => (Config.ext c).isSome

/-- `BS` as a function of `ALG` (10_state R28, R122): 16 for MARS, the record's `bs` for an external cipher; none where the
record is absent. -/
def algBlockSize : Alg → Option Nat
  | .mars => some 16
  | .external c => (Config.ext c).map ExtCipher.bs

end Sys2Proof.Machine
end

