-- ==== Sys2Proof/Machine/Flags.lean ====
section
/-! DEFINITION. The checks that precede a command's work (60_exceptions R308) and the guarded reads of the registers (10_state
R26, R37). There are no arithmetic flags: no data-path operation writes a flag (R26). Each check either raises its error,
which answers the command, or goes on with `next`. -/

namespace Sys2Proof.Machine

/-- A precondition of a command: where it fails the command raises `e` (R306, R308). -/
def require (ok : Bool) (e : Error) (s : State) (next : Result) : Result :=
  if ok then next else .next (s.raise e)

/-- Step 2 of R308: a command that takes no operand (R57). -/
def whenNoOperand (s : State) (next : Result) : Result := require s.input.isEmpty .unsupportedConfiguration s next

/-- A read of `ALG`, guarded by `CFGD` (R26, R37). -/
def withAlg (s : State) (next : Alg → Result) : Result :=
  match s.alg with
  | some a => next a
  | none => .fault (.noValue .alg)

/-- Step 4 of R308: `CFGD`, then `ALG` can be read. -/
def whenConfigured (s : State) (next : Alg → Result) : Result := require s.cfgd .uninitializedCipher s (withAlg s next)

/-- The record of an external cipher (47_external_ciphers R290); present whenever `ALG` names it (R293). -/
def withExternal (c : ExternalCipher) (next : ExtCipher → Result) : Result :=
  match Config.ext c with
  | some x => next x
  | none => .fault (.absentCipher c)

/-- `BS` (R28, R122). -/
def withBlockSize (a : Alg) (next : Nat → Result) : Result :=
  match a with
  | .mars => next 16
  | .external c => withExternal c fun x => next x.bs

/-- Step 7 of R308: `INITED`. -/
def whenInited (s : State) (next : Result) : Result := require s.inited .uninitializedCipher s next

/-- A read of `MODE`, guarded by `CFGD` (R26, R37). -/
def withMode (s : State) (next : Mode → Result) : Result :=
  match s.mode with
  | some m => next m
  | none => .fault (.noValue .mode)

/-- A read of `PAD`, guarded by `CFGD` (R26, R37). -/
def withPadding (s : State) (next : Padding → Result) : Result :=
  match s.pad with
  | some p => next p
  | none => .fault (.noValue .pad)

/-- A read of `K`, guarded by `INITED` (R21, R37). -/
def withSubkeys (s : State) (next : Subkeys → Result) : Result :=
  match s.k with
  | some K => next K
  | none => .fault (.noValue .k)

/-- A read of `XK`, guarded by `INITED` (R31, R37). -/
def withExternalKey (s : State) (next : Bytes → Result) : Result :=
  match s.xk with
  | some xk => next xk
  | none => .fault (.noValue .xk)

/-- A read of `IV`, guarded by `IVV` (R30, R37). -/
def withIv (s : State) (next : Bytes → Result) : Result :=
  match s.iv with
  | some v => next v
  | none => .fault (.noValue .iv)

/-- Step 8 of R308: under every mode but ECB the IV must be there, and is read; ECB needs none and goes on with an empty
string that it does not look at (R254, R265). -/
def whenIvReady (s : State) (m : Mode) (next : Bytes → Result) : Result :=
  match m with
  | .ecb => next []
  | .cbc | .pcbc | .cfb | .ofb | .ctr => require s.ivv .uninitializedCipher s (withIv s next)

end Sys2Proof.Machine
end

