-- ==== Sys2Proof/Machine/Arith.lean ====
section
/-! DEFINITION. The word arithmetic of 40_word_arithmetic R100 to R109 and the byte orders of 20_memory R50 to R54. Addition,
subtraction, multiplication modulo 2^32, exclusive or and `AND` (R100 to R103) are those of `BitVec 32`. -/

namespace Sys2Proof.Machine

/-- `rotl(x, n)` for `0 ≤ n ≤ 31` (R104); an amount of zero leaves the word unchanged. -/
def rotl (x : Word) (n : Nat) : Word := if n = 0 then x else (x <<< n) ||| (x >>> (32 - n))

/-- `rotr(x, n)` for `0 ≤ n ≤ 31` (R105). -/
def rotr (x : Word) (n : Nat) : Word := rotl x ((32 - n) % 32)

/-- `x >>> n`, zero filled from the top (R106). -/
def shiftRight (x : Word) (n : Nat) : Word := x >>> n

/-- `be32(b0, b1, b2, b3)`, the first byte the most significant (R50). -/
def be32 (b0 b1 b2 b3 : Byte) : Word := b0 ++ b1 ++ b2 ++ b3

/-- `le32(b0, b1, b2, b3)`, the first byte the least significant (R51). -/
def le32 (b0 b1 b2 b3 : Byte) : Word := b3 ++ b2 ++ b1 ++ b0

/-- The four bytes of a word, most significant first: `w[31-8k : 24-8k]` for `k = 0..3` (R53). -/
def beBytes (w : Word) : Bytes := [w.extractLsb' 24 8, w.extractLsb' 16 8, w.extractLsb' 8 8, w.extractLsb' 0 8]

/-- The four bytes of a word, least significant first: `w[8k+7 : 8k]` for `k = 0..3` (R52). -/
def leBytes (w : Word) : Bytes := [w.extractLsb' 0 8, w.extractLsb' 8 8, w.extractLsb' 16 8, w.extractLsb' 24 8]

/-- `xorb(s, u)`, the bytewise exclusive or of two strings of equal length (R109). -/
def xorb (s u : Bytes) : Bytes := List.zipWith (· ^^^ ·) s u

/-- `rep(v, n)`, `n` bytes of value `v` (R13). -/
def rep (v : Byte) (n : Nat) : Bytes := List.replicate n v

/-- A byte string read as one unsigned integer, byte 0 most significant (R54, R263). -/
def natOfBytes (s : Bytes) : Nat := s.foldl (fun v b => v * 256 + b.toNat) 0

/-- The `n`-byte big-endian form of `v` modulo `256^n` (R54, R263). -/
def bytesOfNat : Nat → Nat → Bytes
  | 0, _ => []
  | n + 1, v => bytesOfNat n (v / 256) ++ [BitVec.ofNat 8 v]

end Sys2Proof.Machine
end

