-- ==== Sys2Proof/Machine/Operands.lean ====
section
/-! DEFINITION. The operand forms of 30_encoding R77 and 20_memory R50 to R56: how the rules turn bits into an index, a
rotation amount or a word, how a block becomes the four data words and back, and how a message splits into blocks. -/

namespace Sys2Proof.Machine

/-- `w AND 0xff`, an index 0 to 255 (R77). -/
def byteIndex (w : Word) : Byte := (w &&& 0xff).setWidth 8

/-- `w AND 0x1ff`, an index 0 to 511 (R77). -/
def nineBitIndex (w : Word) : BitVec 9 := (w &&& 0x1ff).setWidth 9

/-- `w AND 0x1f`, a rotation amount 0 to 31 (R77). -/
def rotAmount (w : Word) : Nat := (w &&& 0x1f).toNat

/-- `S0[x] = SBOX[x]` (20_memory R56). -/
def sbox0 (S : SBox) (x : Byte) : Word := S (x.setWidth 9)

/-- `S1[x] = SBOX[256 + x]` (R56). -/
def sbox1 (S : SBox) (x : Byte) : Word := S (256 + x.setWidth 9)

/-- Key word `w`, big-endian (R50). The key has at least `4w + 4` bytes where a rule reads it (log 9). -/
def keyWord (key : Bytes) (w : Nat) : Word :=
  be32 (key.getD (4 * w) 0) (key.getD (4 * w + 1) 0) (key.getD (4 * w + 2) 0) (key.getD (4 * w + 3) 0)

/-- Block word `w`, little-endian (R51). The block has at least `4w + 4` bytes where a rule reads it (log 9). -/
def blockWord (b : Bytes) (w : Nat) : Word :=
  le32 (b.getD (4 * w) 0) (b.getD (4 * w + 1) 0) (b.getD (4 * w + 2) 0) (b.getD (4 * w + 3) 0)

/-- The data words `D[0..3]` (10_state R20), named as inside a round: `A`, `B`, `C`, `Dv`. -/
structure Data where
  a : Word
  b : Word
  c : Word
  d : Word
  deriving DecidableEq, Repr

/-- `D[w] <- le32(b[4w..4w+4])` for `w = 0..3` (R51). -/
def loadBlock (b : Bytes) : Data := ⟨blockWord b 0, blockWord b 1, blockWord b 2, blockWord b 3⟩

/-- The data words written back as 16 bytes (R52, R187). -/
def storeBlock (D : Data) : Bytes := leBytes D.a ++ leBytes D.b ++ leBytes D.c ++ leBytes D.d

/-- `X_j = X[j*BS .. (j+1)*BS]` for `j = 0 .. n-1` (46_modes R253). -/
def splitBlocks (bs : Nat) : Nat → Bytes → List Bytes
  | 0, _ => []
  | n + 1, x => x.take bs :: splitBlocks bs n (x.drop bs)

/-- Splitting a string of whole blocks of `bs` bytes into its blocks (R253). -/
def toBlocks (bs : Nat) (x : Bytes) : List Bytes := splitBlocks bs (x.length / bs) x

/-- The 160 bytes of RDKEY: byte `4i + k` is `K[i][31-8k : 24-8k]` (20_memory R53). -/
def subkeyBytes (K : Subkeys) : Bytes := K.toList.flatMap beBytes

end Sys2Proof.Machine
end

