-- ==== Sys2Proof/Machine/Mars.lean ====
section
/-! DEFINITION. MARS on one block: the E-function and encryption (43_mars_encrypt R170 to R188), and decryption, its exact
inverse (44_mars_decrypt R200 to R207). The S-box and the subkeys are arguments, as in the rules. -/

namespace Sys2Proof.Machine

/-- The outputs `(L, M, R)` of the E-function (10_state R22). -/
structure EOut where
  l : Word
  m : Word
  r : Word
  deriving DecidableEq, Repr

/-- `E(src, k1, k2)` (R176). -/
def eFunction (S : SBox) (src k1 k2 : Word) : EOut :=
  let r := rotl (rotl src 13 * k2) 10
  let m := rotl (src + k1) (rotAmount (shiftRight r 5))
  let l1 := S (nineBitIndex m)
  let l2 := l1 ^^^ shiftRight r 5 ^^^ r
  ⟨rotl l2 (rotAmount r), m, r⟩

/-- `FwdRound(i, D)` (R172); the additions to `A` use the updated `B` and `Dv` (R173). -/
def fwdRound (S : SBox) (i : Nat) (D : Data) : Data :=
  let b := (D.b ^^^ sbox0 S (byteIndex D.a)) + sbox1 S (byteIndex (rotr D.a 8))
  let c := D.c + sbox0 S (byteIndex (rotr D.a 16))
  let d := D.d ^^^ sbox1 S (byteIndex (rotr D.a 24))
  let a1 := rotr D.a 24
  let a2 := if i = 1 ∨ i = 5 then a1 + b else a1
  let a3 := if i = 0 ∨ i = 4 then a2 + d else a2
  ⟨b, c, d, a3⟩

/-- `CoreRound(i, D, K)` (R175): subkeys `K[2i+4]`, `K[2i+5]`; the targets of `L` and `R` swap from round 8 on. -/
def coreRound (S : SBox) (K : Subkeys) (i : Fin 16) (D : Data) : Data :=
  let e := eFunction S D.a (K[2 * i.val + 4]'(by omega)) (K[2 * i.val + 5]'(by omega))
  let x0 := rotl D.a 13
  let x2 := D.c + e.m
  if i.val < 8 then ⟨D.b + e.l, x2, D.d ^^^ e.r, x0⟩ else ⟨D.b ^^^ e.r, x2, D.d + e.l, x0⟩

/-- `BwdRound(i, D)` (R181); the subtractions use the entry values of `B` and `Dv`. -/
def bwdRound (S : SBox) (i : Nat) (D : Data) : Data :=
  let a1 := if i = 3 ∨ i = 7 then D.a - D.b else D.a
  let a2 := if i = 2 ∨ i = 6 then a1 - D.d else a1
  let b := D.b ^^^ sbox1 S (byteIndex a2)
  let c := D.c - sbox0 S (byteIndex (rotl a2 8))
  let d := (D.d - sbox1 S (byteIndex (rotl a2 16))) ^^^ sbox0 S (byteIndex (rotl a2 24))
  ⟨b, c, d, rotl a2 24⟩

/-- `D[w] + K[m + w]` for `w = 0..3`: whitening-in with `m = 0` (R171), undoing whitening-out with `m = 36` (R201). -/
def addKeys (K : Subkeys) (m : Fin 37) (D : Data) : Data :=
  ⟨D.a + K[m.val]'(by omega), D.b + K[m.val + 1]'(by omega), D.c + K[m.val + 2]'(by omega),
    D.d + K[m.val + 3]'(by omega)⟩

/-- `D[w] - K[m + w]` for `w = 0..3`: whitening-out with `m = 36` (R186), undoing whitening-in with `m = 0` (R206). -/
def subKeys (K : Subkeys) (m : Fin 37) (D : Data) : Data :=
  ⟨D.a - K[m.val]'(by omega), D.b - K[m.val + 1]'(by omega), D.c - K[m.val + 2]'(by omega),
    D.d - K[m.val + 3]'(by omega)⟩

/-- The forward and backward rounds' indices, `i = 0..7` ascending (R25, R170). -/
def mixRounds : List Nat := [0, 1, 2, 3, 4, 5, 6, 7]

/-- The core rounds' indices, `i = 0..15` ascending (R25, R170). -/
def coreRounds : List (Fin 16) := [0, 1, 2, 3, 4, 5, 6, 7, 8, 9, 10, 11, 12, 13, 14, 15]

/-- The data path of `MarsEncrypt` on the four words: whitening-in, phases I, II, III, whitening-out (R170). -/
def encryptWords (K : Subkeys) (S : SBox) (D0 : Data) : Data :=
  let D1 := addKeys K 0 D0
  let D2 := mixRounds.foldl (fun D i => fwdRound S i D) D1
  let D3 := coreRounds.foldl (fun D i => coreRound S K i D) D2
  let D4 := mixRounds.foldl (fun D i => bwdRound S i D) D3
  subKeys K 36 D4

/-- `MarsEncrypt(K, SBOX, b)` (R170). -/
def marsEncrypt (K : Subkeys) (S : SBox) (b : Bytes) : Bytes := storeBlock (encryptWords K S (loadBlock b))

/-- `BwdRoundInv(i, D)` (R202); on entry `D = (B', C', Dv', A')`. -/
def bwdRoundInv (S : SBox) (i : Nat) (D : Data) : Data :=
  let a2 := rotr D.d 24
  let d := (D.c ^^^ sbox0 S (byteIndex (rotl a2 24))) + sbox1 S (byteIndex (rotl a2 16))
  let c := D.b + sbox0 S (byteIndex (rotl a2 8))
  let b := D.a ^^^ sbox1 S (byteIndex a2)
  let a1 := if i = 2 ∨ i = 6 then a2 + d else a2
  let a := if i = 3 ∨ i = 7 then a1 + b else a1
  ⟨a, b, c, d⟩

/-- `CoreRoundInv(i, D, K)` (R203); on entry `D = (X1, X2, X3, X0)`. It calls the E-function of encryption (R204). -/
def coreRoundInv (S : SBox) (K : Subkeys) (i : Fin 16) (D : Data) : Data :=
  let src := rotr D.d 13
  let e := eFunction S src (K[2 * i.val + 4]'(by omega)) (K[2 * i.val + 5]'(by omega))
  let y2 := D.b - e.m
  if i.val < 8 then ⟨src, D.a - e.l, y2, D.c ^^^ e.r⟩ else ⟨src, D.a ^^^ e.r, y2, D.c - e.l⟩

/-- `FwdRoundInv(i, D)` (R205); on entry `D = (B', C', Dv', A')`. -/
def fwdRoundInv (S : SBox) (i : Nat) (D : Data) : Data :=
  let a2 := if i = 0 ∨ i = 4 then D.d - D.c else D.d
  let a1 := if i = 1 ∨ i = 5 then a2 - D.a else a2
  let a := rotl a1 24
  let d := D.c ^^^ sbox1 S (byteIndex (rotr a 24))
  let c := D.b - sbox0 S (byteIndex (rotr a 16))
  let b := (D.a - sbox1 S (byteIndex (rotr a 8))) ^^^ sbox0 S (byteIndex a)
  ⟨a, b, c, d⟩

/-- The data path of `MarsDecrypt` on the four words: every step undone, every index descending (R200). -/
def decryptWords (K : Subkeys) (S : SBox) (D0 : Data) : Data :=
  let D1 := addKeys K 36 D0
  let D2 := mixRounds.reverse.foldl (fun D i => bwdRoundInv S i D) D1
  let D3 := coreRounds.reverse.foldl (fun D i => coreRoundInv S K i D) D2
  let D4 := mixRounds.reverse.foldl (fun D i => fwdRoundInv S i D) D3
  subKeys K 0 D4

/-- `MarsDecrypt(K, SBOX, c)` (R200). -/
def marsDecrypt (K : Subkeys) (S : SBox) (c : Bytes) : Bytes := storeBlock (decryptWords K S (loadBlock c))

end Sys2Proof.Machine
end

