-- ==== Sys2Proof/Machine/Cipher.lean ====
section
/-! DEFINITION. `EncBlock` and `DecBlock` of the configured cipher (41_blockcipher_commands R122; 47_external_ciphers R292). -/

namespace Sys2Proof.Machine

/-- The two block functions of R122, with the expanded key in them. -/
structure BlockCipher where
  enc : Bytes → Bytes
  dec : Bytes → Bytes

/-- MARS under the expanded key `K` (R122, R170, R200). -/
def marsCipher (K : Subkeys) : BlockCipher := ⟨marsEncrypt K Config.sbox, marsDecrypt K Config.sbox⟩

/-- An external cipher under the expanded key `xk` (R122, R292). -/
def externalCipher (x : ExtCipher) (xk : Bytes) : BlockCipher := ⟨x.enc xk, x.dec xk⟩

/-- The block functions `ALG` selects, over the expanded key in the state (R122). -/
def withCipher (s : State) (a : Alg) (next : BlockCipher → Result) : Result :=
  match a with
  | .mars => withSubkeys s fun K => next (marsCipher K)
  | .external c => withExternal c fun x => withExternalKey s fun xk => next (externalCipher x xk)

end Sys2Proof.Machine
end

