-- ==== Sys2Proof/Machine/Block.lean ====
section
/-! DEFINITION. The block commands ENCB and DECB (41_blockcipher_commands R129, R130). `MODE`, `PAD` and `IV` are ignored. -/

namespace Sys2Proof.Machine

/-- The common form of the two: the checks in their order, then one block function of the cipher on `IN`. -/
def blockCommand (f : BlockCipher → Bytes → Bytes) (s : State) : Result :=
  whenConfigured s fun a => withBlockSize a fun bs =>
    require (s.input.length == bs) .invalidBlockSize s <|
      whenInited s <| withCipher s a fun cipher => .next (s.succeed (f cipher s.input))

/-- ENCB (R129): `OUT <- EncBlock(IN)`. -/
def execEncb (s : State) : Result := blockCommand BlockCipher.enc s

/-- DECB (R130): `OUT <- DecBlock(IN)`. -/
def execDecb (s : State) : Result := blockCommand BlockCipher.dec s

end Sys2Proof.Machine
end

