-- ==== Sys2Proof/Syntax.lean ====
section
/-! DEFINITION. The commands: one constructor per row of the opcode table (30_encoding R71, R72). The fields of CFG and
the count of GENIV are kept as the bits of the command word; the meanings judge them (41_blockcipher_commands R121). -/

namespace Sys2Proof

/-- The eleven commands (R72). The operand byte string `IN` is no part of the command word: it comes with the
transaction (R70) and stands in the state. -/
inductive Instr where
  /-- RESET, 0x00 (R120). -/
  | reset
  /-- CFG alg, mode, pad, 0x01, with the three raw 4-bit fields of the word (R121). -/
  | cfg (alg mode pad : BitVec 4)
  /-- INIT, 0x02; `IN` is the key (R123). -/
  | init
  /-- SETIV, 0x03; `IN` is the IV (R125). -/
  | setiv
  /-- GENIV n, 0x04, with the unsigned count `N` (R76, R126). -/
  | geniv (n : BitVec 12)
  /-- BLKSZ, 0x05 (R127). -/
  | blksz
  /-- RDKEY, 0x06 (R128). -/
  | rdkey
  /-- ENCB, 0x10; `IN` is one block (R129). -/
  | encb
  /-- DECB, 0x11; `IN` is one block (R130). -/
  | decb
  /-- ENCM, 0x20; `IN` is the message (R250). -/
  | encm
  /-- DECM, 0x21; `IN` is the ciphertext (R251). -/
  | decm
  deriving DecidableEq, Repr

end Sys2Proof
end

