-- ==== Sys2Proof/WellFormed.lean ====
section
/-! DEFINITION. Which commands carry legal fields (30_encoding R73 to R75, R80, R81). The types bound the width of every
field; what is left to check is that the three fields of a CFG name an algorithm, a mode and a padding. A CFG that is
not well formed still decodes and runs: its meaning raises UnsupportedConfigurationError (R121; log 13). -/

namespace Sys2Proof

/-- `ALG` codes 0 to 4 are legal, 5 to 15 are not (R73). -/
def algCodeLegal (alg : BitVec 4) : Bool := alg.toNat ≤ 4

/-- `MODE` codes 0 to 6 are names, 7 to 15 are not (R74); code 6 is a name that CFG refuses (R266). -/
def modeCodeLegal (mode : BitVec 4) : Bool := mode.toNat ≤ 6

/-- `PAD` codes 0 to 3 are legal, 4 to 15 are not (R75). -/
def padCodeLegal (pad : BitVec 4) : Bool := pad.toNat ≤ 3

/-- The command's fields are legal (R80, R81). -/
def Instr.wellFormed : Instr → Bool
  | .reset => true
  | .cfg alg mode pad => algCodeLegal alg && modeCodeLegal mode && padCodeLegal pad
  | .init => true
  | .setiv => true
  | .geniv _ => true
  | .blksz => true
  | .rdkey => true
  | .encb => true
  | .decb => true
  | .encm => true
  | .decm => true

end Sys2Proof
end

