-- ==== Sys2Proof/Decode.lean ====
section
/-! DEFINITION. The command word and the codes of its fields (30_encoding R71 to R82): the decoder, total on every word and
rejecting by name, then the encoder and the maps between codes and names. -/

namespace Sys2Proof

/-- `OPC = CW[31:24]` (R71). -/
def opcField (w : Word) : BitVec 8 := w.extractLsb' 24 8

/-- `ALG = CW[23:20]` (R71). -/
def algField (w : Word) : BitVec 4 := w.extractLsb' 20 4

/-- `MODE = CW[19:16]` (R71). -/
def modeField (w : Word) : BitVec 4 := w.extractLsb' 16 4

/-- `PAD = CW[15:12]` (R71). -/
def padField (w : Word) : BitVec 4 := w.extractLsb' 12 4

/-- `N = CW[11:0]`, unsigned, not scaled (R71, R76). -/
def countField (w : Word) : BitVec 12 := w.extractLsb' 0 12

/-- Why a word is no command. Both make the engine answer UnsupportedConfigurationError (R78, R79). -/
inductive DecodeError where
  /-- `OPC` is reserved: 0x07 to 0x0f, 0x12 to 0x1f, 0x22 to 0xff (R79). -/
  | reservedOpc (opc : BitVec 8)
  /-- A field the command does not use is not zero (R78). -/
  | unusedBits (opc : BitVec 8)
  deriving DecidableEq, Repr

/-- `CW[23:0] = 0`, asked of every command but CFG and GENIV (R78). -/
def noFields (w : Word) : Bool := w.extractLsb' 0 24 == 0

/-- A command without fields decodes if its unused bits are zero (R78). -/
def decodePlain (w : Word) (i : Instr) : Except DecodeError Instr :=
  if noFields w then .ok i else .error (.unusedBits (opcField w))

/-- CFG decodes if `CW[11:0] = 0` (R78); its fields are judged by its meaning (R121; log 13). -/
def decodeCfg (w : Word) : Except DecodeError Instr :=
  if countField w == 0 then .ok (.cfg (algField w) (modeField w) (padField w)) else .error (.unusedBits (opcField w))

/-- GENIV decodes if `CW[23:12] = 0` (R78). -/
def decodeGeniv (w : Word) : Except DecodeError Instr :=
  if w.extractLsb' 12 12 == (0 : BitVec 12) then .ok (.geniv (countField w)) else .error (.unusedBits (opcField w))

/-- The decoder: every word is exactly one command or is rejected by name (R72, R78, R79, R81). -/
def decodeWord (w : Word) : Except DecodeError Instr :=
  let opc := opcField w
  if opc = 0x00 then decodePlain w .reset
  else if opc = 0x01 then decodeCfg w
  else if opc = 0x02 then decodePlain w .init
  else if opc = 0x03 then decodePlain w .setiv
  else if opc = 0x04 then decodeGeniv w
  else if opc = 0x05 then decodePlain w .blksz
  else if opc = 0x06 then decodePlain w .rdkey
  else if opc = 0x10 then decodePlain w .encb
  else if opc = 0x11 then decodePlain w .decb
  else if opc = 0x20 then decodePlain w .encm
  else if opc = 0x21 then decodePlain w .decm
  else .error (.reservedOpc opc)

/-- The command read from an opcode-table word of `nbits` bits numbered as the table numbers them; the one format has 32
bits (R71), so the word is the table's number and no byte order enters. -/
def decodeTableWord (nbits w : Nat) : Option Instr :=
  if w % 2 ^ nbits < 2 ^ 32 then
    match decodeWord (BitVec.ofNat 32 (w % 2 ^ nbits)) with
    | .ok i => some i
    | .error _ => none
  else none

/-- `OPC << 24 | ALG << 20 | MODE << 16 | PAD << 12 | N` (R71, R83). -/
def packWord (opc : BitVec 8) (alg mode pad : BitVec 4) (n : BitVec 12) : Word := opc ++ alg ++ mode ++ pad ++ n

/-- The operation code of a command (R72). -/
def opcode : Instr → BitVec 8
  | .reset => 0x00
  | .cfg _ _ _ => 0x01
  | .init => 0x02
  | .setiv => 0x03
  | .geniv _ => 0x04
  | .blksz => 0x05
  | .rdkey => 0x06
  | .encb => 0x10
  | .decb => 0x11
  | .encm => 0x20
  | .decm => 0x21

/-- The encoder: the command word of a command, every field it does not use zero (R71, R72, R78). -/
def encode (i : Instr) : Word :=
  match i with
  | .cfg alg mode pad => packWord (opcode i) alg mode pad 0
  | .geniv n => packWord (opcode i) 0 0 0 n
  | .reset | .init | .setiv | .blksz | .rdkey | .encb | .decb | .encm | .decm => packWord (opcode i) 0 0 0 0

/-- `ALG` codes (R73): 0 DES, 1 DEAL, 2 RC5, 3 RIJNDAEL, 4 MARS; 5 to 15 are illegal. -/
def algOfCode (c : BitVec 4) : Option Alg :=
  match c.toNat with
  | 0 => some (.external .des)
  | 1 => some (.external .deal)
  | 2 => some (.external .rc5)
  | 3 => some (.external .rijndael)
  | 4 => some .mars
  | _ => none

/-- `MODE` codes an engine can run (R74): 0 ECB, 1 CBC, 2 PCBC, 3 CFB, 4 OFB, 5 CTR. Code 6, RANDOM_DELTA, is a name that
CFG refuses (R266); 7 to 15 are illegal. -/
def modeOfCode (c : BitVec 4) : Option Mode :=
  match c.toNat with
  | 0 => some .ecb
  | 1 => some .cbc
  | 2 => some .pcbc
  | 3 => some .cfb
  | 4 => some .ofb
  | 5 => some .ctr
  | _ => none

/-- `PAD` codes (R75): 0 PKCS7, 1 ANSI_X923, 2 ISO_10126, 3 ZEROS; 4 to 15 are illegal. -/
def padOfCode (c : BitVec 4) : Option Padding :=
  match c.toNat with
  | 0 => some .pkcs7
  | 1 => some .ansiX923
  | 2 => some .iso10126
  | 3 => some .zeros
  | _ => none

/-- The code of an algorithm (R73). -/
def algCode : Alg → BitVec 4
  | .external .des => 0
  | .external .deal => 1
  | .external .rc5 => 2
  | .external .rijndael => 3
  | .mars => 4

/-- The code of a mode (R74). -/
def modeCode : Mode → BitVec 4
  | .ecb => 0
  | .cbc => 1
  | .pcbc => 2
  | .cfb => 3
  | .ofb => 4
  | .ctr => 5

/-- The code of RANDOM_DELTA, a defined name with no defined behaviour (R74, R266). -/
def randomDeltaCode : BitVec 4 := 6

/-- The code of a padding scheme (R75). -/
def padCode : Padding → BitVec 4
  | .pkcs7 => 0
  | .ansiX923 => 1
  | .iso10126 => 2
  | .zeros => 3

end Sys2Proof
end

