-- ==== Sys2Proof/Machine/KeySchedule.lean ====
section
/-! DEFINITION. The MARS key schedule, `MarsExpand` (42_mars_key_schedule R150 to R163). It reads no S-box and conditions no
subkey (R162). -/

namespace Sys2Proof.Machine

/-- `KC[m mod 4]`, the four constants as the source prints them (10_state R33, R156). -/
def keyConstant (m : Nat) : Word :=
  match m % 4 with
  | 0 => 0x4d34d34d
  | 1 => 0xd34d34d3
  | 2 => 0x34d34d34
  | _ => 0xd34d34d3

/-- `MarsKeyOk(key)`: 16 to 56 bytes, a whole number of words (41_blockcipher_commands R124). -/
def marsKeyOk (key : Bytes) : Bool := 16 ≤ key.length && key.length ≤ 56 && key.length % 4 == 0

/-- Steps 1 to 5 at position `i` of pass `j`, over the words written so far, whose number is the fill count `t` at this
moment (R150, R152, R153). Every index read is below `t` (R159). -/
def scheduleWord (K : List Word) (i j : Nat) : Word :=
  let t := K.length
  let step1 := K.getD i 0 ^^^ K.getD ((i + t - 1) % t) 0
  let step2 := rotl step1 3
  let step3 := step2 ^^^ keyConstant j
  let step4 := step3 ^^^ K.getD ((i + t - 2) % t) 0
  rotl step4 (rotAmount step4)

/-- The positions of one pass: `n` of them from position `i` on, each appending one word (step 6, R150). -/
def schedulePass (j : Nat) : Nat → Nat → List Word → List Word
  | 0, _, K => K
  | n + 1, i, K => schedulePass j n (i + 1) (K ++ [scheduleWord K i j])

/-- The passes: while the array is not full, pass `j` visits the positions below the fill count at its start, and stops
when the array is full (R154, R158). `fuel` bounds the number of passes; each appends at least one word. -/
def schedulePasses : Nat → Nat → List Word → List Word
  | 0, _, K => K
  | fuel + 1, j, K =>
    if K.length < 40 then schedulePasses fuel (j + 1) (schedulePass j (min K.length (40 - K.length)) 0 K) else K

/-- The key words, the first `t0` subkeys (R151). -/
def keyWords (key : Bytes) : List Word := (List.range (key.length / 4)).map (keyWord key)

/-- The forty words of the expanded key, as a list that grows from the key words (R150). -/
def expandWords (key : Bytes) : List Word := schedulePasses 40 0 (keyWords key)

/-- `MarsExpand(key)`, for a key with `MarsKeyOk(key)` (R150). The list then has exactly forty words (R158). -/
def marsExpand (key : Bytes) : Subkeys := Vector.ofFn fun i => (expandWords key).getD i 0

end Sys2Proof.Machine
end

