-- ==== Sys2Proof/Machine/Control.lean ====
section
/-! DEFINITION. The control commands RESET, CFG, INIT, SETIV, GENIV, BLKSZ, RDKEY (41_blockcipher_commands R120 to R128). -/

namespace Sys2Proof.Machine

/-- RESET (R120): the state of power-on reset in every architectural register (R330). -/
def execReset (s : State) : Result := whenNoOperand s (.next (s.clear.succeed []))

/-- The configuration a CFG asks for, if every code is legal, the mode is not RANDOM_DELTA and the cipher is present
(R121, R80, R266, R293). -/
def requestedConfig (alg mode pad : BitVec 4) : Option (Alg × Mode × Padding) :=
  match algOfCode alg, modeOfCode mode, padOfCode pad with
  | some a, some m, some p => if algPresent a then some (a, m, p) else none
  | _, _, _ => none

/-- CFG (R121): a failed CFG leaves the previous configuration, key and IV in force. -/
def execCfg (alg mode pad : BitVec 4) (s : State) : Result :=
  whenNoOperand s <| .next <|
    match requestedConfig alg mode pad with
    | some (a, m, p) => (s.configure a m p).succeed []
    | none => s.raise .unsupportedConfiguration

/-- INIT (R123): the expanded key replaces the one before it; a failed INIT leaves that one in place (R40). -/
def execInit (s : State) : Result :=
  whenConfigured s fun a =>
    match a with
    | .mars =>
      require (marsKeyOk s.input) .invalidKey s <| .next ((s.loadSubkeys (marsExpand s.input)).succeed [])
    | .external c =>
      withExternal c fun x =>
        require (x.keyOk s.input) .invalidKey s <| .next ((s.loadExternalKey (x.expand s.input)).succeed [])

/-- SETIV (R125): accepted in every mode. -/
def execSetiv (s : State) : Result :=
  whenConfigured s fun a => withBlockSize a fun bs =>
    require (s.input.length == bs) .invalidBlockSize s <| .next ((s.loadIv s.input).succeed [])

/-- GENIV (R126): accepted in every state; `IV` is not loaded. -/
def execGeniv (n : BitVec 12) (s : State) : Result :=
  whenNoOperand s (.next ((s.advanceDraws n.toNat).succeed (s.drawn n.toNat)))

/-- BLKSZ (R127). -/
def execBlksz (s : State) : Result :=
  whenNoOperand s <| whenConfigured s fun a => withBlockSize a fun bs => .next (s.succeed [BitVec.ofNat 8 bs])

/-- RDKEY (R128): MARS only. -/
def execRdkey (s : State) : Result :=
  whenNoOperand s <| whenConfigured s fun a =>
    require (a == .mars) .unsupportedConfiguration s <|
      whenInited s <| withSubkeys s fun K => .next (s.succeed (subkeyBytes K))

end Sys2Proof.Machine
end

