-- ==== Sys2Proof/Machine/Modes.lean ====
section
/-! DEFINITION. The chaining modes over any block cipher (46_modes R252 to R267). `E` and `D` are `EncBlock` and `DecBlock`;
blocks are processed in ascending index (20_memory R62), and the chaining state is an argument, local to one message
(10_state R34, R265). -/

namespace Sys2Proof.Machine

/-- CBC encrypt (R255): `C_j = E(P_j XOR C_{j-1})`. -/
def cbcEncrypt (E : Bytes → Bytes) : Bytes → List Bytes → List Bytes
  | _, [] => []
  | chain, p :: ps => E (xorb p chain) :: cbcEncrypt E (E (xorb p chain)) ps

/-- CBC decrypt (R256): `P_j = D(C_j) XOR C_{j-1}`, with the received ciphertext block. -/
def cbcDecrypt (D : Bytes → Bytes) : Bytes → List Bytes → List Bytes
  | _, [] => []
  | chain, c :: cs => xorb (D c) chain :: cbcDecrypt D c cs

/-- PCBC encrypt (R257): `C_j = E(P_j XOR C_{j-1} XOR P_{j-1})`. -/
def pcbcEncrypt (E : Bytes → Bytes) : Bytes → Bytes → List Bytes → List Bytes
  | _, _, [] => []
  | chain, prevp, p :: ps =>
    E (xorb (xorb p chain) prevp) :: pcbcEncrypt E (E (xorb (xorb p chain) prevp)) p ps

/-- PCBC decrypt (R258): `P_j = D(C_j) XOR C_{j-1} XOR P_{j-1}`, with the plaintext block just recovered. -/
def pcbcDecrypt (D : Bytes → Bytes) : Bytes → Bytes → List Bytes → List Bytes
  | _, _, [] => []
  | chain, prevp, c :: cs =>
    xorb (xorb (D c) chain) prevp :: pcbcDecrypt D c (xorb (xorb (D c) chain) prevp) cs

/-- CFB encrypt (R259): `C_j = P_j XOR E(C_{j-1})`. -/
def cfbEncrypt (E : Bytes → Bytes) : Bytes → List Bytes → List Bytes
  | _, [] => []
  | chain, p :: ps => xorb p (E chain) :: cfbEncrypt E (xorb p (E chain)) ps

/-- CFB decrypt (R260): `P_j = C_j XOR E(C_{j-1})`. -/
def cfbDecrypt (E : Bytes → Bytes) : Bytes → List Bytes → List Bytes
  | _, [] => []
  | chain, c :: cs => xorb c (E chain) :: cfbDecrypt E c cs

/-- OFB, both directions (R261): block `j` uses `E` applied `j + 1` times to the IV. -/
def ofbCrypt (E : Bytes → Bytes) : Bytes → List Bytes → List Bytes
  | _, [] => []
  | o, x :: xs => xorb x (E o) :: ofbCrypt E (E o) xs

/-- `CtrAdd(iv, j)`: the whole block as one big-endian counter, modulo `256^BS` (R263). -/
def ctrAdd (iv : Bytes) (j : Nat) : Bytes := bytesOfNat iv.length ((natOfBytes iv + j) % 256 ^ iv.length)

/-- CTR, both directions, from block index `j` on (R262). -/
def ctrCrypt (E : Bytes → Bytes) (iv : Bytes) : Nat → List Bytes → List Bytes
  | _, [] => []
  | j, x :: xs => xorb x (E (ctrAdd iv j)) :: ctrCrypt E iv (j + 1) xs

/-- `ModeEncrypt(MODE, IV, P_0 .. P_{n-1})` (R250, R254 to R263). ECB does not look at `iv`. -/
def modeEncrypt (mode : Mode) (bs : Nat) (E : Bytes → Bytes) (iv : Bytes) (blocks : List Bytes) : List Bytes :=
  match mode with
  | .ecb => blocks.map E
  | .cbc => cbcEncrypt E iv blocks
  | .pcbc => pcbcEncrypt E iv (rep 0 bs) blocks
  | .cfb => cfbEncrypt E iv blocks
  | .ofb => ofbCrypt E iv blocks
  | .ctr => ctrCrypt E iv 0 blocks

/-- `ModeDecrypt(MODE, IV, C_0 .. C_{n-1})` (R251, R254 to R263). CFB, OFB and CTR call `E`, never `D` (R267). -/
def modeDecrypt (mode : Mode) (bs : Nat) (E D : Bytes → Bytes) (iv : Bytes) (blocks : List Bytes) : List Bytes :=
  match mode with
  | .ecb => blocks.map D
  | .cbc => cbcDecrypt D iv blocks
  | .pcbc => pcbcDecrypt D iv (rep 0 bs) blocks
  | .cfb => cfbDecrypt E iv blocks
  | .ofb => ofbCrypt E iv blocks
  | .ctr => ctrCrypt E iv 0 blocks

end Sys2Proof.Machine
end

