-- ==== Sys2Proof/Machine/Padding.lean ====
section
/-! DEFINITION. The padding schemes (45_padding R220 to R234): `Pad`, the bytes it draws, and `Unpad`, which answers none
where the rules raise PaddingError. -/

namespace Sys2Proof.Machine

/-- The pad length `n = BS - (len mod BS)`, 1 to `BS` (R221). -/
def padLength (bs len : Nat) : Nat := bs - len % bs

/-- How many filler bytes the scheme draws for a pad of `n` bytes: `n - 1` for ISO_10126, none otherwise (R226). -/
def padDraws (p : Padding) (n : Nat) : Nat :=
  match p with
  | .iso10126 => n - 1
  | .pkcs7 | .ansiX923 | .zeros => 0

/-- The `n` bytes a scheme appends (R222, R224, R226, R228); `filler` is what ISO_10126 has drawn. -/
def padBytes (p : Padding) (n : Nat) (filler : Bytes) : Bytes :=
  match p with
  | .pkcs7 => rep (BitVec.ofNat 8 n) n
  | .ansiX923 => rep 0 (n - 1) ++ [BitVec.ofNat 8 n]
  | .iso10126 => filler ++ [BitVec.ofNat 8 n]
  | .zeros => rep 0 n

/-- `Pad(msg)` (R221 to R228). -/
def padMessage (p : Padding) (bs : Nat) (filler msg : Bytes) : Bytes :=
  msg ++ padBytes p (padLength bs msg.length) filler

/-- The count byte of a counted scheme: the last byte, if it is in `1 .. BS`; none on an empty string (R223, R225, R227,
R232). -/
def padCount (bs : Nat) (buf : Bytes) : Option Nat :=
  match buf.getLast? with
  | none => none
  | some n => if 1 ≤ n.toNat ∧ n.toNat ≤ bs then some n.toNat else none

/-- `buf` without its last `n` bytes. -/
def dropPad (n : Nat) (buf : Bytes) : Bytes := buf.take (buf.length - n)

/-- `Unpad` for PKCS7: the last `n` bytes must all equal `n` (R223). -/
def unpadPkcs7 (bs : Nat) (buf : Bytes) : Option Bytes :=
  match padCount bs buf with
  | none => none
  | some n => if (buf.drop (buf.length - n)).all (· == BitVec.ofNat 8 n) then some (dropPad n buf) else none

/-- `Unpad` for ANSI_X923: the `n - 1` bytes before the last must be zero (R225). -/
def unpadAnsiX923 (bs : Nat) (buf : Bytes) : Option Bytes :=
  match padCount bs buf with
  | none => none
  | some n => if ((buf.drop (buf.length - n)).take (n - 1)).all (· == 0) then some (dropPad n buf) else none

/-- `Unpad` for ISO_10126: only the count byte is checked (R227). -/
def unpadIso10126 (bs : Nat) (buf : Bytes) : Option Bytes :=
  match padCount bs buf with
  | none => none
  | some n => some (dropPad n buf)

/-- `Unpad` for ZEROS: every trailing zero byte is removed, and nothing fails (R229). -/
def unpadZeros (buf : Bytes) : Bytes := (buf.reverse.dropWhile (· == 0)).reverse

/-- `Unpad(buf)`; none is PaddingError (R223 to R233). -/
def unpadMessage (p : Padding) (bs : Nat) (buf : Bytes) : Option Bytes :=
  match p with
  | .pkcs7 => unpadPkcs7 bs buf
  | .ansiX923 => unpadAnsiX923 bs buf
  | .iso10126 => unpadIso10126 bs buf
  | .zeros => some (unpadZeros buf)

end Sys2Proof.Machine
end

