-- ==== Sys2Proof/Machine/Message.lean ====
section
/-! DEFINITION. The whole-message commands ENCM and DECM (46_modes R250, R251): pad first, then the mode (R252); the mode on
the whole ciphertext, then unpad once (45_padding R220). The IV is neither in `OUT` nor in `IN` (R264). -/

namespace Sys2Proof.Machine

/-- The ciphertext of a message, `filler` being the bytes the padding has drawn (R250). -/
def encryptMessage (mode : Mode) (pad : Padding) (bs : Nat) (cipher : BlockCipher) (iv filler msg : Bytes) : Bytes :=
  (modeEncrypt mode bs cipher.enc iv (toBlocks bs (padMessage pad bs filler msg))).flatten

/-- The message of a ciphertext; none is PaddingError (R251, R233). -/
def decryptMessage (mode : Mode) (pad : Padding) (bs : Nat) (cipher : BlockCipher) (iv ct : Bytes) : Option Bytes :=
  unpadMessage pad bs (modeDecrypt mode bs cipher.enc cipher.dec iv (toBlocks bs ct)).flatten

/-- ENCM (R250). -/
def execEncm (s : State) : Result :=
  whenConfigured s fun a => withBlockSize a fun bs =>
    whenInited s <| withMode s fun m => whenIvReady s m fun iv =>
      withCipher s a fun cipher => withPadding s fun p =>
        let n := padDraws p (padLength bs s.input.length)
        .next ((s.advanceDraws n).succeed (encryptMessage m p bs cipher iv (s.drawn n) s.input))

/-- DECM (R251): the checks in the order of R308, PaddingError after decryption. -/
def execDecm (s : State) : Result :=
  whenConfigured s fun a => withBlockSize a fun bs =>
    require (s.input.length % bs == 0) .invalidBlockSize s <|
      whenInited s <| withMode s fun m => whenIvReady s m fun iv =>
        withCipher s a fun cipher => withPadding s fun p =>
          match decryptMessage m p bs cipher iv s.input with
          | some msg => .next (s.succeed msg)
          | none => .next (s.raise .padding)

end Sys2Proof.Machine
end

