-- ==== Sys2Proof/Machine/Dispatch.lean ====
section
/-! DEFINITION. One arm per command of the opcode table: each calls its meaning. -/

namespace Sys2Proof.Machine

def exec (i : Instr) (s : State) : Host.Outcome State Fault Refusal :=
  match i with
  | .reset => Sys2Proof.Machine.execReset s
  | .cfg alg mode pad => Sys2Proof.Machine.execCfg alg mode pad s
  | .init => Sys2Proof.Machine.execInit s
  | .setiv => Sys2Proof.Machine.execSetiv s
  | .geniv n => Sys2Proof.Machine.execGeniv n s
  | .blksz => Sys2Proof.Machine.execBlksz s
  | .rdkey => Sys2Proof.Machine.execRdkey s
  | .encb => Sys2Proof.Machine.execEncb s
  | .decb => Sys2Proof.Machine.execDecb s
  | .encm => Sys2Proof.Machine.execEncm s
  | .decm => Sys2Proof.Machine.execDecm s

end Sys2Proof.Machine
end

