-- ==== Sys2Proof/Machine/Transaction.lean ====
section
/-! DEFINITION. How the host's commands reach the engine (30_encoding R70; log 1). -/

namespace Sys2Proof.Machine

/-- The host issues `c` before every command still to come. -/
def State.issueFirst (c : Command) (s : State) : State := { s with commands := c :: s.commands }

/-- The host issues the commands `cs` after every command still to come. -/
def State.issue (cs : List Command) (s : State) : State := { s with commands := s.commands ++ cs }

/-- The command of an opcode-table word of `nbits` bits, with an empty operand string. -/
def tableCommand (nbits w : Nat) : Command := ⟨BitVec.ofNat 32 (w % 2 ^ nbits), []⟩

end Sys2Proof.Machine
end

