-- ==== Sys2Proof/Machine/Step.lean ====
section
/-! DEFINITION. One step of the engine: it takes the host's next command, decodes its word, runs it and answers it, and only
then takes the next (30_encoding R70; 20_memory R59, R63). -/

namespace Sys2Proof.Machine

/-- One transaction (R70). A word that decodes to no command raises UnsupportedConfigurationError (R78, R79). With no
command to take the engine waits (log 2). -/
def step (s : State) : Host.Outcome State Fault Refusal :=
  match s.commands with
  | [] => .next s
  | c :: rest =>
    match decodeWord c.word with
    | .ok i => exec i (s.accept c rest)
    | .error _ => .next ((s.accept c rest).raise .unsupportedConfiguration)

/-- `s` with a command of the word `w` and an empty operand as the one the engine takes next (log 1). -/
def State.withFetchWord (s : State) (nbits w : Nat) : State := s.issueFirst (tableCommand nbits w)

end Sys2Proof.Machine
end

