-- ==== Sys2Proof/Machine/Factory.lean ====
section
/-! DEFINITION. The names outside the command word (30_encoding R83 to R88): the factory's resolution of algorithm, mode and
padding names, the command sequences that stand for the source's software calls, and the assembler lines of the spec's
programs. No command runs these; they make the commands a host issues (log 11, log 16). -/

namespace Sys2Proof.Machine

/-- A name as the characters it is written with. -/
abbrev NameText := List Char

/-- ASCII `a..z` to `A..Z`, nothing else changed (R87). -/
def upperAscii (c : Char) : Char := if 97 ≤ c.toNat ∧ c.toNat ≤ 122 then Char.ofNat (c.toNat - 32) else c

/-- The value of `name` in a table of upper-case names, matched without regard to ASCII case and without trimming; an
unknown name is UnsupportedConfigurationError (R87). -/
def lookupName (table : List (NameText × BitVec 4)) (name : NameText) : Except Error (BitVec 4) :=
  match table.lookup (name.map upperAscii) with
  | some code => .ok code
  | none => .error .unsupportedConfiguration

/-- The factory's four algorithm names (R84). -/
def factoryNames : List (NameText × BitVec 4) :=
  [(['D', 'E', 'S'], 0), (['D', 'E', 'A', 'L'], 1), (['R', 'C', '5'], 2), (['R', 'I', 'J', 'N', 'D', 'A', 'E', 'L'], 3)]

/-- Algorithm names: the factory's four, and `MARS` where the factory exposes it (R84, R85). -/
def resolveAlg (exposesMars : Bool) : NameText → Except Error (BitVec 4) :=
  lookupName (if exposesMars then (['M', 'A', 'R', 'S'], 4) :: factoryNames else factoryNames)

/-- Mode names (R86). `RANDOM_DELTA` resolves; the CFG that carries its code is refused (R266). -/
def resolveMode : NameText → Except Error (BitVec 4) :=
  lookupName [(['C', 'B', 'C'], 1), (['C', 'F', 'B'], 3), (['C', 'T', 'R'], 5), (['E', 'C', 'B'], 0), (['O', 'F', 'B'], 4),
    (['P', 'C', 'B', 'C'], 2), (['R', 'A', 'N', 'D', 'O', 'M', '_', 'D', 'E', 'L', 'T', 'A'], 6)]

/-- Padding names (R87). -/
def resolvePad : NameText → Except Error (BitVec 4) :=
  lookupName [(['A', 'N', 'S', 'I', '_', 'X', '9', '2', '3'], 1), (['I', 'S', 'O', '_', '1', '0', '1', '2', '6'], 2),
    (['P', 'K', 'C', 'S', '7'], 0), (['Z', 'E', 'R', 'O', 'S'], 3)]

/-- Factory resolution of `(algorithm, mode, padding)`: the CFG the three names ask for, or the error of an unknown name
(R84 to R88). -/
def resolveCfg (exposesMars : Bool) (alg mode pad : NameText) : Except Error Instr :=
  match resolveAlg exposesMars alg, resolveMode mode, resolvePad pad with
  | .ok a, .ok m, .ok p => .ok (.cfg a m p)
  | _, _, _ => .error .unsupportedConfiguration

/-- The command of an instruction and an operand string. -/
def commandOf (i : Instr) (operand : Bytes) : Command := ⟨encode i, operand⟩

/-- `CipherModeType`, the source's enumeration of chaining modes (R27, R74): the six an engine can run, and RANDOM_DELTA. -/
inductive CipherModeType where
  | chained (m : Mode)
  | randomDelta
  deriving DecidableEq, Repr

/-- The code of a `CipherModeType` (R74). -/
def CipherModeType.code : CipherModeType → BitVec 4
  | .chained m => modeCode m
  | .randomDelta => randomDeltaCode

/-- The CFG of a configuration given by its values, not by names: MARS is among them whatever the factory exposes (R85). -/
def configOf (cipher : Alg) (mode : CipherModeType) (pad : Padding) : Instr := .cfg (algCode cipher) mode.code (padCode pad)

/-- The software calls of the source (R88), one constructor per row, the construction in its two forms. -/
inductive SoftwareCall where
  /-- Factory resolution of `(algorithm, mode, padding)` names. -/
  | resolve (alg mode pad : NameText)
  /-- `SymmetricCipher` construction with all five fields, the first three as values (R331). -/
  | construct (cipher : Alg) (mode : CipherModeType) (pad : Padding) (key iv : Bytes)
  /-- `SymmetricCipher` construction under ECB with no IV given, the only one R88 has without SETIV. -/
  | constructEcbNoIv (cipher : Alg) (pad : Padding) (key : Bytes)
  /-- `BlockCipher.init(key)`. -/
  | initKey (key : Bytes)
  /-- `BlockCipher.blockSize()`. -/
  | blockSize
  /-- `BlockCipher.encrypt(block)`. -/
  | encryptBlock (b : Bytes)
  /-- `BlockCipher.decrypt(block)`. -/
  | decryptBlock (b : Bytes)
  /-- `SymmetricCipher` encrypt of a message. -/
  | encrypt (msg : Bytes)
  /-- `SymmetricCipher` decrypt of a ciphertext. -/
  | decrypt (ct : Bytes)
  /-- The IV helper with `size`; `load` where the caller wants the returned bytes used as the IV. -/
  | generateIv (size : BitVec 12) (load : Bool)
  /-- The output of `MarsKeySchedule` for interchange. -/
  | keyScheduleOutput
  deriving DecidableEq, Repr

/-- The commands a software call begins with, under the engine's factory (R88). -/
def softwareCommands : SoftwareCall → Except Error (List Command)
  | .resolve alg mode pad =>
    match resolveCfg Config.factoryExposesMars alg mode pad with
    | .ok i => .ok [commandOf i []]
    | .error e => .error e
  | .construct cipher mode pad key iv =>
    .ok [commandOf (configOf cipher mode pad) [], commandOf .init key, commandOf .setiv iv]
  | .constructEcbNoIv cipher pad key => .ok [commandOf (configOf cipher (.chained .ecb) pad) [], commandOf .init key]
  | .initKey key => .ok [commandOf .init key]
  | .blockSize => .ok [commandOf .blksz []]
  | .encryptBlock b => .ok [commandOf .encb b]
  | .decryptBlock b => .ok [commandOf .decb b]
  | .encrypt msg => .ok [commandOf .encm msg]
  | .decrypt ct => .ok [commandOf .decm ct]
  | .generateIv size _ => .ok [commandOf (.geniv size) []]
  | .keyScheduleOutput => .ok [commandOf .rdkey []]

/-- The commands that follow once the first ones are answered, from the bytes the last of them returned: SETIV after GENIV
where the caller wants the bytes used (R88). -/
def followingCommands : SoftwareCall → Bytes → List Command
  | .generateIv _ true, out => [commandOf .setiv out]
  | .generateIv _ false, _ | .resolve _ _ _, _ | .construct _ _ _ _ _, _ | .constructEcbNoIv _ _ _, _ | .initKey _, _
  | .blockSize, _ | .encryptBlock _, _ | .decryptBlock _, _ | .encrypt _, _ | .decrypt _, _ | .keyScheduleOutput, _ => []

/-- The result bytes of the last response, if it was a success. -/
def State.result (s : State) : Option Bytes :=
  match s.response with
  | some r => if r.st = okCode then some r.out else none
  | none => none

/-- The host issues the commands one by one, each after the answer to the one before, and stops at the first error (R70; log
11). -/
def runCommands : List Command → State → Result
  | [], s => .next s
  | c :: cs, s =>
    match step (s.issueFirst c) with
    | .next t =>
      match t.result with
      | some _ => runCommands cs t
      | none => .next t
    | .fault f => .fault f
    | .refused r => .refused r

/-- A software call on the engine in state `s`: its first commands, then those that use what they returned (R88). An unknown
name is an error before any command (R87). -/
def runCall (call : SoftwareCall) (s : State) : Except Error Result :=
  match softwareCommands call with
  | .error e => .error e
  | .ok cs =>
    match runCommands cs s with
    | .next t =>
      match t.result with
      | some out => .ok (runCommands (followingCommands call out) t)
      | none => .ok (.next t)
    | .fault f => .ok (.fault f)
    | .refused r => .ok (.refused r)

/-- The value of a decimal digit. -/
def decimalDigit (c : Char) : Option Nat := if 48 ≤ c.toNat ∧ c.toNat ≤ 57 then some (c.toNat - 48) else none

/-- The value of a hexadecimal digit, either case. -/
def hexDigit (c : Char) : Option Nat :=
  if 97 ≤ c.toNat ∧ c.toNat ≤ 102 then some (c.toNat - 87)
  else if 65 ≤ c.toNat ∧ c.toNat ≤ 70 then some (c.toNat - 55)
  else decimalDigit c

/-- `<hex bytes>`: a possibly empty string of two-digit hexadecimal bytes, byte 0 first (R83). -/
def hexBytes : NameText → Option Bytes
  | [] => some []
  | [_] => none
  | hi :: lo :: rest =>
    match hexDigit hi, hexDigit lo, hexBytes rest with
    | some h, some l, some s => some (BitVec.ofNat 8 (16 * h + l) :: s)
    | _, _, _ => none

/-- A decimal number, of one digit at least (R83). -/
def decimal (s : NameText) : Option Nat :=
  match s with
  | [] => none
  | _ :: _ => s.foldl (fun v c => v.bind fun n => (decimalDigit c).map (10 * n + ·)) (some 0)

/-- The commands whose line is a mnemonic and hexadecimal bytes (R83). -/
def operandMnemonics : List (NameText × Instr) :=
  [(['I', 'N', 'I', 'T'], .init), (['S', 'E', 'T', 'I', 'V'], .setiv), (['E', 'N', 'C', 'B'], .encb),
    (['D', 'E', 'C', 'B'], .decb), (['E', 'N', 'C', 'M'], .encm), (['D', 'E', 'C', 'M'], .decm)]

/-- The commands whose line is a mnemonic alone (R83). -/
def bareMnemonics : List (NameText × Instr) :=
  [(['R', 'E', 'S', 'E', 'T'], .reset), (['B', 'L', 'K', 'S', 'Z'], .blksz), (['R', 'D', 'K', 'E', 'Y'], .rdkey)]

/-- One assembler line, already cut into its mnemonic and its operands (R83; log 16). The empty operand of `<hex bytes>`
may be left out. None is a line that is no command. -/
def assembleLine (exposesMars : Bool) (mnemonic : NameText) (operands : List NameText) : Option Command :=
  match operandMnemonics.lookup mnemonic, bareMnemonics.lookup mnemonic, operands with
  | some i, _, [] => some (commandOf i [])
  | some i, _, [hex] => (hexBytes hex).map (commandOf i)
  | none, some i, [] => some (commandOf i [])
  | none, none, [n] =>
    if mnemonic = ['G', 'E', 'N', 'I', 'V'] then
      match decimal n with
      | some v => if v < 4096 then some (commandOf (.geniv (BitVec.ofNat 12 v)) []) else none
      | none => none
    else none
  | none, none, [alg, mode, pad] =>
    if mnemonic = ['C', 'F', 'G'] then
      match resolveCfg exposesMars alg mode pad with
      | .ok i => some (commandOf i [])
      | .error _ => none
    else none
  | _, _, _ => none

end Sys2Proof.Machine
end

