-- ==== Sys2Proof/Safety.lean ====
section
/-! DEFINITION. What counts as a safe run, in the terms the statements use: the coherent states, in which every register that
its flag declares readable holds a value (10_state R26, R37); what a command may leave unchanged; and the tables of
60_exceptions R307 and R308 and of 42_mars_key_schedule R160, as data. No step reads any of it. -/

namespace Sys2Proof.Machine

/-- The configuration registers hold values exactly while `CFGD` is set, and the cipher they name is present (R26, R27,
R293). -/
structure ConfigCoherent (s : State) : Prop where
  alg_iff : s.alg.isSome = s.cfgd
  mode_iff : s.mode.isSome = s.cfgd
  pad_iff : s.pad.isSome = s.cfgd
  present : ∀ a, s.alg = some a → algPresent a = true

/-- While `INITED` is set, exactly the expanded key of the configured cipher is there, and it is the expansion of a key the
cipher accepts; otherwise there is none (R21, R26, R31). -/
structure KeyCoherent (s : State) : Prop where
  configured : s.inited = true → s.cfgd = true
  k_iff : s.k.isSome = (s.inited && s.alg == some .mars)
  xk_iff : s.xk.isSome = (s.inited && s.alg != some .mars)
  k_expanded : ∀ K, s.k = some K → ∃ key, marsKeyOk key = true ∧ K = marsExpand key
  xk_expanded : ∀ xk c x, s.xk = some xk → s.alg = some (.external c) → Config.ext c = some x →
    ∃ key, x.keyOk key = true ∧ xk = x.expand key

/-- While `IVV` is set the IV is there and has `BS` bytes; otherwise there is none (R26, R30). -/
structure IvCoherent (s : State) : Prop where
  configured : s.ivv = true → s.cfgd = true
  iv_iff : s.iv.isSome = s.ivv
  iv_length : ∀ v a bs, s.iv = some v → s.alg = some a → algBlockSize a = some bs → v.length = bs

/-- The last response carries a status code of R82, and an error's `OUT` is empty (R82, R306). -/
def ResponseLegal (r : Response) : Prop :=
  r.st = okCode ∨ ∃ e : Error, r.st = e.code ∧ r.out = []

/-- A state that a run can reach, as far as the guards need it. -/
structure Coherent (s : State) : Prop where
  config : ConfigCoherent s
  key : KeyCoherent s
  iv : IvCoherent s
  response : ∀ r, s.response = some r → ResponseLegal r

/-- The two states agree in every architectural register of 10_state R36. -/
structure SameRegisters (s t : State) : Prop where
  cfgd : t.cfgd = s.cfgd
  inited : t.inited = s.inited
  ivv : t.ivv = s.ivv
  alg : t.alg = s.alg
  mode : t.mode = s.mode
  pad : t.pad = s.pad
  k : t.k = s.k
  xk : t.xk = s.xk
  iv : t.iv = s.iv

/-- From `s` to `t` the command in progress was answered `(st, out)` and nothing else changed: no register, no draw, no
command still to come (R70, R306). -/
structure Answers (s t : State) (st : Byte) (out : Bytes) : Prop where
  registers : SameRegisters s t
  draws : t.draws = s.draws
  commands : t.commands = s.commands
  input : t.input = []
  response : t.response = some ⟨st, out⟩

/-- The block functions of the algorithm `a` over the expanded key in the state, where both are there (R122). -/
def keyedCipher (s : State) (a : Alg) : Option BlockCipher :=
  match a with
  | .mars => s.k.map marsCipher
  | .external c =>
    match Config.ext c, s.xk with
    | some x, some xk => some (externalCipher x xk)
    | _, _ => none

/-- A configured engine with algorithm `a` and block size `bs` (R26, R28). -/
structure Configured (s : State) (a : Alg) (bs : Nat) : Prop where
  cfgd : s.cfgd = true
  alg : s.alg = some a
  blockSize : algBlockSize a = some bs

/-- A configured engine with an expanded key, whose block functions are `cipher` (R122, R331). -/
structure Keyed (s : State) (a : Alg) (bs : Nat) (cipher : BlockCipher) : Prop where
  configured : Configured s a bs
  inited : s.inited = true
  cipher : keyedCipher s a = some cipher

/-- An engine ready for whole messages: keyed, with mode `m`, padding `p` and, unless the mode is ECB, the IV `v` (R331). -/
structure MessageReady (s : State) (a : Alg) (bs : Nat) (cipher : BlockCipher) (m : Mode) (p : Padding) (v : Bytes) : Prop where
  keyed : Keyed s a bs cipher
  mode : s.mode = some m
  pad : s.pad = some p
  iv : m ≠ .ecb → s.ivv = true ∧ s.iv = some v
  noIv : m = .ecb → v = []

/-- The commands that take no operand (R57). -/
def takesNoOperand : Instr → Bool
  | .reset | .cfg _ _ _ | .geniv _ | .blksz | .rdkey => true
  | .init | .setiv | .encb | .decb | .encm | .decm => false

/-- The commands that need `CFGD` (R26): all but RESET, CFG and GENIV. -/
def needsConfiguration : Instr → Bool
  | .reset | .cfg _ _ _ | .geniv _ => false
  | .init | .setiv | .blksz | .rdkey | .encb | .decb | .encm | .decm => true

/-- The commands that need `INITED` (R26). -/
def needsKey : Instr → Bool
  | .rdkey | .encb | .decb | .encm | .decm => true
  | .reset | .cfg _ _ _ | .init | .setiv | .geniv _ | .blksz => false

/-- Does a CFG ask for a configuration the engine refuses (R80, R121)? -/
def cfgRefused : Instr → Bool
  | .cfg alg mode pad => (requestedConfig alg mode pad).isNone
  | .reset | .init | .setiv | .geniv _ | .blksz | .rdkey | .encb | .decb | .encm | .decm => false

/-- The block size of the configured cipher, where there is one. -/
def stateBlockSize (s : State) : Option Nat := s.alg.bind algBlockSize

/-- Is `IN` a key the configured cipher refuses (R57, R124)? -/
def keyRefused (s : State) : Bool :=
  match s.alg with
  | some .mars => !marsKeyOk s.input
  | some (.external c) => (Config.ext c).any fun x => !x.keyOk s.input
  | none => false

/-- Has `IN` a length the command refuses with InvalidBlockSizeError (R57)? -/
def lengthRefused (s : State) : Instr → Bool
  | .setiv | .encb | .decb => (stateBlockSize s).any fun bs => s.input.length != bs
  | .decm => (stateBlockSize s).any fun bs => s.input.length % bs != 0
  | .reset | .cfg _ _ _ | .init | .geniv _ | .blksz | .rdkey | .encm => false

/-- Is an IV needed and missing (R26, R302)? -/
def ivMissing (s : State) : Instr → Bool
  | .encm | .decm => s.mode != some .ecb && !s.ivv
  | .reset | .cfg _ _ _ | .init | .setiv | .geniv _ | .blksz | .rdkey | .encb | .decb => false

/-- The IV a message command starts from; ECB looks at none (R265). -/
def messageIv (s : State) : Bytes := if s.mode = some .ecb then [] else s.iv.getD []

/-- Does `Unpad` refuse the decryption of `IN` (R233)? -/
def paddingRefused (s : State) : Instr → Bool
  | .decm =>
    match s.alg, s.mode, s.pad with
    | some a, some m, some p =>
      match algBlockSize a, keyedCipher s a with
      | some bs, some cipher => (decryptMessage m p bs cipher (messageIv s) s.input).isNone
      | _, _ => false
    | _, _, _ => false
  | .reset | .cfg _ _ _ | .init | .setiv | .geniv _ | .blksz | .rdkey | .encb | .decb | .encm => false

/-- The checks of a decoded command in the order of R308, from its step 2 to its step 9: the error and whether it applies.
Step 1, the word checks, is the decoder's. -/
def orderedChecks (s : State) (i : Instr) : List (Error × Bool) :=
  [(.unsupportedConfiguration, takesNoOperand i && !s.input.isEmpty),
   (.unsupportedConfiguration, cfgRefused i),
   (.uninitializedCipher, needsConfiguration i && !s.cfgd),
   (.unsupportedConfiguration, i == .rdkey && s.alg != some .mars),
   (.invalidKey, i == .init && keyRefused s),
   (.invalidBlockSize, lengthRefused s i),
   (.uninitializedCipher, needsKey i && !s.inited),
   (.uninitializedCipher, ivMissing s i),
   (.padding, paddingRefused s i)]

/-- The first error that applies (R308). -/
def firstError (s : State) (i : Instr) : Option Error := ((orderedChecks s i).find? (·.2)).map (·.1)

/-- The table of R307: which errors a decoded command can raise, the word checks apart. -/
def canRaise : Instr → List Error
  | .reset => [.unsupportedConfiguration]
  | .cfg _ _ _ => [.unsupportedConfiguration]
  | .init => [.invalidKey, .uninitializedCipher]
  | .setiv => [.invalidBlockSize, .uninitializedCipher]
  | .geniv _ => [.unsupportedConfiguration]
  | .blksz => [.uninitializedCipher, .unsupportedConfiguration]
  | .rdkey => [.uninitializedCipher, .unsupportedConfiguration]
  | .encb => [.invalidBlockSize, .uninitializedCipher]
  | .decb => [.invalidBlockSize, .uninitializedCipher]
  | .encm => [.uninitializedCipher]
  | .decm => [.invalidBlockSize, .uninitializedCipher, .padding]

/-- The commands that write or clear the configuration (R38). -/
def writesConfiguration : Instr → Bool
  | .reset | .cfg _ _ _ => true
  | .init | .setiv | .geniv _ | .blksz | .rdkey | .encb | .decb | .encm | .decm => false

/-- The commands that write or clear the expanded key (R38). -/
def writesKey : Instr → Bool
  | .reset | .cfg _ _ _ | .init => true
  | .setiv | .geniv _ | .blksz | .rdkey | .encb | .decb | .encm | .decm => false

/-- The commands that write or clear the IV (R38). -/
def writesIv : Instr → Bool
  | .reset | .cfg _ _ _ | .setiv => true
  | .init | .geniv _ | .blksz | .rdkey | .encb | .decb | .encm | .decm => false

/-- The commands that may draw from RNG in state `s` (R38): GENIV, and ENCM under ISO_10126. -/
def drawsRandom (s : State) : Instr → Bool
  | .geniv _ => true
  | .encm => s.pad == some .iso10126
  | .reset | .cfg _ _ _ | .init | .setiv | .blksz | .rdkey | .encb | .decb | .decm => false

/-- The passes of the key schedule for a key of `t0` words, as R160 lists them: pass index, fill count at its start, number
of positions it processes. -/
def passTable : Nat → List (Nat × Nat × Nat)
  | 4 => [(0, 4, 4), (1, 8, 8), (2, 16, 16), (3, 32, 8)]
  | 5 => [(0, 5, 5), (1, 10, 10), (2, 20, 20)]
  | 6 => [(0, 6, 6), (1, 12, 12), (2, 24, 16)]
  | 7 => [(0, 7, 7), (1, 14, 14), (2, 28, 12)]
  | 8 => [(0, 8, 8), (1, 16, 16), (2, 32, 8)]
  | 9 => [(0, 9, 9), (1, 18, 18), (2, 36, 4)]
  | 10 => [(0, 10, 10), (1, 20, 20)]
  | 11 => [(0, 11, 11), (1, 22, 18)]
  | 12 => [(0, 12, 12), (1, 24, 16)]
  | 13 => [(0, 13, 13), (1, 26, 14)]
  | 14 => [(0, 14, 14), (1, 28, 12)]
  | _ => []

/-- The round trip of a message under a padding scheme has a premise under ZEROS only: the message is empty or does not end
in a zero byte (R230). -/
def PaddingReversible (p : Padding) (msg : Bytes) : Prop := p = .zeros → msg.getLast? ≠ some 0

end Sys2Proof.Machine
end

