-- ==== Sys2Proof/Certificates/Slice0/Obligations.lean ====
section
/-! DEFINITION. The statements for the provers. Each says in its docstring which rule of spec/ it formalises, or that it
rests on a choice of the model. -/

open Sys2Proof Sys2Proof.Machine

/-! ## The command word -/

/-- The command words that 95_test_vectors V70 writes out, one for each command, decode to their commands (R71 to R76, the
spec's decision D2). -/
def Obligations.SpecWordsDecode : Prop :=
  decodeWord 0x00000000 = .ok .reset ∧
  decodeWord 0x01410000 = .ok (.cfg 4 1 0) ∧
  decodeWord 0x01332000 = .ok (.cfg 3 3 2) ∧
  decodeWord 0x02000000 = .ok .init ∧
  decodeWord 0x03000000 = .ok .setiv ∧
  decodeWord 0x04000010 = .ok (.geniv 16) ∧
  decodeWord 0x05000000 = .ok .blksz ∧
  decodeWord 0x06000000 = .ok .rdkey ∧
  decodeWord 0x10000000 = .ok .encb ∧
  decodeWord 0x11000000 = .ok .decb ∧
  decodeWord 0x20000000 = .ok .encm ∧
  decodeWord 0x21000000 = .ok .decm

/-- Decoding the word of a command gives the command back, for every command and every value of its fields; and a word that
decodes is the word of the command it decodes to, so the decoder ignores no bit. The encoding is the spec's decision D2 and D5
(R71, R72, R78). That a CFG with an illegal `ALG`, `MODE` or `PAD` is a command that decodes, and whose meaning refuses it, is
the model's reading (DEDUCED, log 13); R81 counts the commands with legal fields only. -/
def Obligations.DecodeAndEncodeAgree : Prop :=
  (∀ i : Instr, decodeWord (encode i) = .ok i) ∧ ∀ (w : Word) (i : Instr), decodeWord w = .ok i → encode i = w

/-- R78 and R79: a reserved operation code, or a non-zero unused field, makes the engine answer
UnsupportedConfigurationError and has no other effect (the spec's decision D5). The fields are read off the word as a
number. -/
def Obligations.ReservedWordsAreRefused : Prop :=
  ∀ (s : State) (c : Command) (rest : List Command), s.commands = c :: rest →
    ((0x07 ≤ c.word.toNat / 2 ^ 24 ∧ c.word.toNat / 2 ^ 24 ≤ 0x0f) ∨
      (0x12 ≤ c.word.toNat / 2 ^ 24 ∧ c.word.toNat / 2 ^ 24 ≤ 0x1f) ∨
      (0x22 ≤ c.word.toNat / 2 ^ 24) ∨
      (c.word.toNat / 2 ^ 24 ≠ 0x01 ∧ c.word.toNat / 2 ^ 24 ≠ 0x04 ∧ c.word.toNat % 2 ^ 24 ≠ 0) ∨
      (c.word.toNat / 2 ^ 24 = 0x01 ∧ c.word.toNat % 2 ^ 12 ≠ 0) ∨
      (c.word.toNat / 2 ^ 24 = 0x04 ∧ c.word.toNat / 2 ^ 12 % 2 ^ 12 ≠ 0)) →
    ∃ t, step s = .next t ∧ Answers (s.accept c rest) t 0x04 []

/-- R81: every word either is the word of exactly one command with legal fields, which the step runs, or the step answers
UnsupportedConfigurationError (the spec's decision D2). -/
def Obligations.EveryWordIsACommandOrIsRefused : Prop :=
  ∀ (s : State) (c : Command) (rest : List Command), s.commands = c :: rest →
    (∃ i : Instr, i.wellFormed = true ∧ encode i = c.word ∧ (∀ i', encode i' = c.word → i' = i) ∧
      step s = exec i (s.accept c rest)) ∨
    (∃ t, step s = .next t ∧ Answers (s.accept c rest) t 0x04 [])

/-! ## The step -/

/-- A step runs the command its word decodes to, on the state in which the command has been taken from the host's list and
its operand is `IN`, all else as before (R70, the spec's decision D1; the list and the latch are the model's, log 1 and log
4); with no command to take it changes nothing (the model's choice, log 2). -/
def Obligations.StepRunsTheDecodedCommand : Prop :=
  (∀ (s : State) (c : Command) (rest : List Command) (i : Instr),
    s.commands = c :: rest → decodeWord c.word = .ok i →
    step s = exec i (s.accept c rest) ∧ (s.accept c rest).commands = rest ∧ (s.accept c rest).input = c.operand ∧
      SameRegisters s (s.accept c rest) ∧ (s.accept c rest).draws = s.draws ∧ (s.accept c rest).response = s.response) ∧
  ∀ s : State, s.commands = [] → step s = .next s

/-- R82: the codes of the five errors and of success (numbers the spec decides, D4); and whatever command a step takes, the
status it answers is one of these six, an error's result is empty, and the step has taken this one command. -/
def Obligations.EveryAnswerHasAListedStatus : Prop :=
  (okCode = 0x00 ∧ Error.code .invalidKey = 0x01 ∧ Error.code .invalidBlockSize = 0x02 ∧
    Error.code .uninitializedCipher = 0x03 ∧ Error.code .unsupportedConfiguration = 0x04 ∧ Error.code .padding = 0x05) ∧
  ∀ (s t : State) (c : Command) (rest : List Command), s.commands = c :: rest → step s = .next t →
    t.commands = rest ∧ t.input = [] ∧
      ∃ r, t.response = some r ∧ (r.st = 0x00 ∨ (r.st.toNat ≤ 5 ∧ r.out = []))

/-! ## Reset and coherence -/

/-- R330 and R37 (the spec's decision D14): after power-on reset the three flags are 0 and no register holds a value; RESET
leaves the same registers; and from there every command but RESET, CFG and GENIV, given no operand it must not have, answers
UninitializedCipherError. The response, the count of draws and the list of commands are the model's fields (log 5), and
nothing here speaks of them. -/
def Obligations.ResetLeavesNothingLoaded : Prop :=
  (State.reset.cfgd = false ∧ State.reset.inited = false ∧ State.reset.ivv = false ∧ State.reset.alg = none ∧
    State.reset.mode = none ∧ State.reset.pad = none ∧ State.reset.k = none ∧ State.reset.xk = none ∧ State.reset.iv = none) ∧
  (∀ s t, s.input = [] → exec .reset s = .next t → SameRegisters State.reset t) ∧
  (∀ s i, SameRegisters State.reset s → needsConfiguration i = true → (takesNoOperand i = true → s.input = []) →
    ∃ t, exec i s = .next t ∧ Answers s t 0x03 [])

/-- The state after reset is coherent: an inference from R37, R26 and R30. The response's clause holds because the model
answers nothing at reset (log 5). -/
def Obligations.ResetIsCoherent : Prop := Coherent State.reset

/-- Every step from a coherent state that answers a next state leaves a coherent state: flags and registers stay in accord,
the expanded key stays the expansion of an accepted key, the IV keeps its length: an inference from R21, R26, R27, R30, R31
and R293. -/
def Obligations.StepKeepsCoherence : Prop :=
  ∀ s t : State, Coherent s → step s = .next t → Coherent t

/-- A coherent engine always answers: no step faults or refuses (R37: a register without value is never read; R307:
"Nothing else can go wrong"). -/
def Obligations.CoherentEngineAlwaysAnswers : Prop :=
  ∀ s : State, Coherent s → ∃ t, step s = .next t

/-- Whatever commands the host issues after reset, and however many steps are taken, no step stops (R307, an inference of the
spec, and R81; the list of commands is the model's, log 1). -/
def Obligations.RunsFromResetNeverStop : Prop :=
  ∀ (cs : List Command) (n : Nat), ∃ t, Sys2Proof.core.run n (State.reset.issue cs) = .next t

/-! ## What each command does -/

/-- RESET without operand: the registers of power-on reset (R120, the spec's decision D14), and of the model's own fields the
draws and the commands kept (log 1, log 6). -/
def Obligations.ResetCompletes : Prop :=
  ∀ s : State, s.input = [] →
    exec .reset s = .next { State.reset with
      draws := s.draws, commands := s.commands, input := [], response := some ⟨okCode, []⟩ }

/-- CFG with legal codes and a cipher that is present: the new configuration, without key and IV (R121 and
R29, the spec's decision D19). -/
def Obligations.CfgCompletes : Prop :=
  ∀ (s : State) (alg mode pad : BitVec 4) (a : Alg) (m : Mode) (p : Padding), s.input = [] →
    algOfCode alg = some a → modeOfCode mode = some m → padOfCode pad = some p → algPresent a = true →
    exec (.cfg alg mode pad) s = .next { s with
      cfgd := true, inited := false, ivv := false, alg := some a, mode := some m, pad := some p,
      k := none, xk := none, iv := none, input := [], response := some ⟨okCode, []⟩ }

/-- CFG refuses illegal codes, RANDOM_DELTA and an absent cipher, and then leaves configuration, key and IV in force (R80;
the refusals of R266 and R293 are the spec's decisions D9 and D12). -/
def Obligations.CfgRefusesWhatItCannotRun : Prop :=
  ∀ (s : State) (alg mode pad : BitVec 4),
    (5 ≤ alg.toNat ∨ 6 ≤ mode.toNat ∨ 4 ≤ pad.toNat ∨
      ∃ c, algOfCode alg = some (.external c) ∧ Config.ext c = none) →
    ∃ t, exec (.cfg alg mode pad) s = .next t ∧ Answers s t 0x04 []

/-- INIT with a key the configured cipher accepts: its expansion is loaded, whether or not a key was there before (R123;
R40 is the spec's decision D21), and nothing else changes. -/
def Obligations.InitCompletes : Prop :=
  ∀ (s : State) (a : Alg), s.cfgd = true → s.alg = some a →
    (a = .mars → marsKeyOk s.input = true →
      exec .init s = .next { s with
        k := some (marsExpand s.input), inited := true, input := [], response := some ⟨okCode, []⟩ }) ∧
    (∀ c x, a = .external c → Config.ext c = some x → x.keyOk s.input = true →
      exec .init s = .next { s with
        xk := some (x.expand s.input), inited := true, input := [], response := some ⟨okCode, []⟩ })

/-- INIT under MARS refuses exactly the keys whose length is none of the eleven (R124), and a refusal leaves the
key it had in place (R306). -/
def Obligations.InitRefusesOtherKeyLengths : Prop :=
  (∀ key : Bytes, marsKeyOk key = true ↔ key.length ∈ [16, 20, 24, 28, 32, 36, 40, 44, 48, 52, 56]) ∧
  ∀ s : State, s.cfgd = true → s.alg = some .mars →
    s.input.length ∉ [16, 20, 24, 28, 32, 36, 40, 44, 48, 52, 56] →
    ∃ t, exec .init s = .next t ∧ Answers s t 0x01 []

/-- SETIV with `BS` bytes: the IV is loaded, in every mode, with or without a key (R125, the spec's decision
D17). -/
def Obligations.SetivCompletes : Prop :=
  ∀ (s : State) (a : Alg) (bs : Nat), Configured s a bs → s.input.length = bs →
    exec .setiv s = .next { s with iv := some s.input, ivv := true, input := [], response := some ⟨okCode, []⟩ }

/-- GENIV without operand, in every state: `N` bytes, whatever they are, and no register changes (R126, the spec's
decision D18; the count of draws is the model's, log 6). -/
def Obligations.GenivCompletes : Prop :=
  ∀ (s : State) (n : BitVec 12), s.input = [] →
    ∃ out : Bytes, out.length = n.toNat ∧
      exec (.geniv n) s = .next { s with draws := s.draws + n.toNat, input := [], response := some ⟨okCode, out⟩ }

/-- BLKSZ without operand on a configured engine: one byte whose value is `BS`, 16 for MARS (R127, R28). -/
def Obligations.BlkszCompletes : Prop :=
  ∀ (s : State) (a : Alg) (bs : Nat), Configured s a bs → s.input = [] →
    (a = .mars → bs = 16) ∧
    exec .blksz s = .next { s with input := [], response := some ⟨okCode, [BitVec.ofNat 8 bs]⟩ }

/-- RDKEY without operand on a keyed MARS engine: the forty subkeys, 160 bytes, byte `4i + k` being bits `31-8k : 24-8k` of
`K[i]` (R128, the spec's decision D22, and R53). -/
def Obligations.RdkeyCompletes : Prop :=
  ∀ (s : State) (K : Subkeys), s.input = [] → s.cfgd = true → s.alg = some .mars → s.inited = true → s.k = some K →
    ∃ out : Bytes,
      exec .rdkey s = .next { s with input := [], response := some ⟨okCode, out⟩ } ∧ out.length = 160 ∧
      ∀ (i : Fin 40) (k : Fin 4), out.getD (4 * i.val + k.val) 0 = (K[i.val]).extractLsb' (24 - 8 * k.val) 8

/-- ENCB on a keyed engine with a block of `BS` bytes: `EncBlock` of it, and nothing changes (R129, R122). -/
def Obligations.EncbCompletes : Prop :=
  ∀ (s : State) (a : Alg) (bs : Nat) (cipher : BlockCipher), Keyed s a bs cipher → s.input.length = bs →
    exec .encb s = .next { s with input := [], response := some ⟨okCode, cipher.enc s.input⟩ }

/-- DECB on a keyed engine with a block of `BS` bytes: `DecBlock` of it, and nothing changes (R130, R122). -/
def Obligations.DecbCompletes : Prop :=
  ∀ (s : State) (a : Alg) (bs : Nat) (cipher : BlockCipher), Keyed s a bs cipher → s.input.length = bs →
    exec .decb s = .next { s with input := [], response := some ⟨okCode, cipher.dec s.input⟩ }

/-- ENCM on a ready engine, for a message of any length: pad, split, run the mode from the IV, join; only ISO_10126 draws,
and no register changes (R250, the spec's decision D5, and R252). The drawn bytes are free (log 6). -/
def Obligations.EncmCompletes : Prop :=
  ∀ (s : State) (a : Alg) (bs : Nat) (cipher : BlockCipher) (m : Mode) (p : Padding) (v : Bytes),
    MessageReady s a bs cipher m p v →
    ∃ filler : Bytes, filler.length = padDraws p (padLength bs s.input.length) ∧
      exec .encm s = .next { s with
        draws := s.draws + padDraws p (padLength bs s.input.length), input := [],
        response := some ⟨okCode,
          (modeEncrypt m bs cipher.enc v (toBlocks bs (padMessage p bs filler s.input))).flatten⟩ }

/-- DECM on a ready engine, for whole blocks whose decryption `Unpad` accepts: the unpadded message, and nothing changes
(R251, the spec's decision D17, and R220). -/
def Obligations.DecmCompletes : Prop :=
  ∀ (s : State) (a : Alg) (bs : Nat) (cipher : BlockCipher) (m : Mode) (p : Padding) (v msg : Bytes),
    MessageReady s a bs cipher m p v → s.input.length % bs = 0 →
    unpadMessage p bs (modeDecrypt m bs cipher.enc cipher.dec v (toBlocks bs s.input)).flatten = some msg →
    exec .decm s = .next { s with input := [], response := some ⟨okCode, msg⟩ }

/-! ## Errors -/

/-- R308: a command reports the first error of the nine checks in their order, or succeeds if none applies. The word checks
come first, then `firstError` in the order of the rule, which is the spec's decision D5. -/
def Obligations.FirstErrorInOrder : Prop :=
  ∀ (s : State) (c : Command) (rest : List Command), Coherent s → s.commands = c :: rest →
    match decodeWord c.word with
    | .error _ => ∃ t, step s = .next t ∧ Answers (s.accept c rest) t (Error.code .unsupportedConfiguration) []
    | .ok i =>
      match firstError (s.accept c rest) i with
      | some e => ∃ t, step s = .next t ∧ Answers (s.accept c rest) t e.code []
      | none => ∃ t out, step s = .next t ∧ t.response = some ⟨okCode, out⟩

/-- R306: a step that answers an error answers one of the five codes and an empty `OUT`, writes and clears no architectural
state and draws nothing; only the command is gone from the host's list, so the engine is ready for the next. Which check
fails first is FirstErrorInOrder. -/
def Obligations.ErrorsChangeNothing : Prop :=
  ∀ (s t : State) (c : Command) (rest : List Command) (r : Response), s.commands = c :: rest → step s = .next t →
    t.response = some r → r.st ≠ okCode → (∃ e : Error, r.st = e.code) ∧ Answers (s.accept c rest) t r.st []

/-- R310: repeating a failed command in the same state with the same operand fails the same way, and again changes
nothing. -/
def Obligations.FailedCommandsFailAgain : Prop :=
  ∀ (s t : State) (c : Command) (rest : List Command) (r : Response), s.commands = c :: rest → step s = .next t →
    t.response = some r → r.st ≠ okCode → step (t.issueFirst c) = .next t

/-- R307: what a decoded command answers is OK or an error its row of the table allows; and every error a row allows, some
coherent state makes that command raise. The table is an inference of the spec's; the word errors in it are the decoder's. -/
def Obligations.ErrorTableIsExact : Prop :=
  (∀ (i : Instr) (s t : State) (r : Response), exec i s = .next t → t.response = some r →
    r.st = okCode ∨ ∃ e ∈ canRaise i, r.st = e.code) ∧
  (∀ (i : Instr) (e : Error), e ∈ canRaise i → ∃ s t, Coherent s ∧ exec i s = .next t ∧ Answers s t e.code [])

/-! ## What a command leaves unchanged -/

/-- R38, the columns a command leaves untouched: the configuration, the expanded key, the IV, the random source (the
table is an inference of the spec's); and no command changes what the host is still to issue (the model's list, log 1). -/
def Obligations.CommandsWriteOnlyTheirColumns : Prop :=
  ∀ (i : Instr) (s t : State), exec i s = .next t →
    (writesConfiguration i = false → t.cfgd = s.cfgd ∧ t.alg = s.alg ∧ t.mode = s.mode ∧ t.pad = s.pad) ∧
    (writesKey i = false → t.inited = s.inited ∧ t.k = s.k ∧ t.xk = s.xk) ∧
    (writesIv i = false → t.ivv = s.ivv ∧ t.iv = s.iv) ∧
    (drawsRandom s i = false → t.draws = s.draws) ∧
    t.commands = s.commands

/-- R39: a step that changes the expanded key is one that ran an INIT, CFG or RESET with success; along a run in which the
host issues none of these the expanded key does not change; and under MARS, ENCB and DECB are functions of `(K, SBOX, IN)`
that change no register. -/
def Obligations.ExpandedKeyIsImmutableAlongRuns : Prop :=
  (∀ s t : State, step s = .next t → (t.inited ≠ s.inited ∨ t.k ≠ s.k ∨ t.xk ≠ s.xk) →
    ∃ c rest i out, s.commands = c :: rest ∧ decodeWord c.word = .ok i ∧ writesKey i = true ∧
      t.response = some ⟨okCode, out⟩) ∧
  (∀ (n : Nat) (s t : State),
    (∀ c ∈ s.commands, ∀ i, decodeWord c.word = .ok i → writesKey i = false) →
    Sys2Proof.core.run n s = .next t → t.inited = s.inited ∧ t.k = s.k ∧ t.xk = s.xk) ∧
  ∀ (s : State) (K : Subkeys), Keyed s .mars 16 (marsCipher K) → s.input.length = 16 →
    (∃ t, exec .encb s = .next t ∧ Answers s t okCode (marsEncrypt K Config.sbox s.input)) ∧
    ∃ t, exec .decb s = .next t ∧ Answers s t okCode (marsDecrypt K Config.sbox s.input)

/-- R270 and R60: two states that agree in every register give a command that draws nothing the same response and the same
registers, whatever else they differ in (R270 is an inference of the spec's). -/
def Obligations.ResponsesDependOnRegistersAndOperandOnly : Prop :=
  ∀ (i : Instr) (s s' t t' : State), SameRegisters s s' → s'.input = s.input → drawsRandom s i = false →
    exec i s = .next t → exec i s' = .next t' → t'.response = t.response ∧ SameRegisters t t'

/-! ## Word arithmetic and byte order -/

/-- R104 and R105: the formula of `rotl` for amounts 1 to 31, the identity for 0, bit `k` moves to bit `(k + n) mod 32`;
`rotr` as a left rotation, bit `k` moves to bit `(k - n) mod 32`; the laws of R105; and the rules' own examples. -/
def Obligations.RotationsMoveBitsAndUndoEachOther : Prop :=
  (∀ (x : Word) (n : Nat), n < 32 →
    (1 ≤ n → rotl x n = (x <<< n) ||| (x >>> (32 - n))) ∧ (n = 0 → rotl x n = x) ∧
    (∀ k, k < 32 → (rotl x n).getLsbD ((k + n) % 32) = x.getLsbD k) ∧
    rotr x n = rotl x ((32 - n) % 32) ∧
    (∀ k, k < 32 → (rotr x n).getLsbD ((k + 32 - n) % 32) = x.getLsbD k) ∧
    rotr (rotl x n) n = x ∧ rotl x 24 = rotr x 8 ∧ rotr x 24 = rotl x 8) ∧
  (rotl 0x80000001 1 = 0x00000003 ∧ rotl 0x12345678 13 = 0x8acf0246 ∧ rotl 0x12345678 24 = 0x78123456 ∧
    rotl 0xdeadbeef 31 = 0xef56df77) ∧
  (rotr 0x80000001 1 = 0xc0000000 ∧ rotr 0x12345678 13 = 0xb3c091a2 ∧ rotr 0x12345678 24 = 0x34567812 ∧
    rotr 0x01234567 24 = 0x23456701)

/-- R107, an inference of the spec's: the index and amount forms are the bit slices the rule names. -/
def Obligations.IndexFormsAreBitSlices : Prop :=
  ∀ A : Word,
    byteIndex A = A.extractLsb' 0 8 ∧ byteIndex (rotr A 8) = A.extractLsb' 8 8 ∧
    byteIndex (rotr A 16) = A.extractLsb' 16 8 ∧ byteIndex (rotr A 24) = A.extractLsb' 24 8 ∧
    byteIndex (rotl A 8) = A.extractLsb' 24 8 ∧ byteIndex (rotl A 16) = A.extractLsb' 16 8 ∧
    byteIndex (rotl A 24) = A.extractLsb' 8 8 ∧ nineBitIndex A = A.extractLsb' 0 9 ∧
    rotAmount (shiftRight A 5) = (A.extractLsb' 5 5).toNat ∧ rotAmount A = (A.extractLsb' 0 5).toNat

/-- The byte orders of words: `be32` and `le32` as sums of bytes (R50, R51), for the words of a key and of a block. That a
block or key too short for the word reads as zero past its end is the model's choice (log 9), and no command makes it do so. -/
def Obligations.WordsHaveTheirByteOrders : Prop :=
  (∀ b0 b1 b2 b3 : Byte,
    (be32 b0 b1 b2 b3).toNat = b0.toNat * 2 ^ 24 + b1.toNat * 2 ^ 16 + b2.toNat * 2 ^ 8 + b3.toNat ∧
    (le32 b0 b1 b2 b3).toNat = b0.toNat + b1.toNat * 2 ^ 8 + b2.toNat * 2 ^ 16 + b3.toNat * 2 ^ 24) ∧
  ∀ s : Bytes,
    loadBlock s = ⟨le32 (s.getD 0 0) (s.getD 1 0) (s.getD 2 0) (s.getD 3 0),
      le32 (s.getD 4 0) (s.getD 5 0) (s.getD 6 0) (s.getD 7 0),
      le32 (s.getD 8 0) (s.getD 9 0) (s.getD 10 0) (s.getD 11 0),
      le32 (s.getD 12 0) (s.getD 13 0) (s.getD 14 0) (s.getD 15 0)⟩ ∧
    ∀ w, keyWord s w = be32 (s.getD (4 * w) 0) (s.getD (4 * w + 1) 0) (s.getD (4 * w + 2) 0) (s.getD (4 * w + 3) 0)

/-- R52: storing the data words is the inverse of loading a block, both ways, and byte `4w + k` is `D[w][8k+7 : 8k]`. -/
def Obligations.StoreBlockInvertsLoadBlock : Prop :=
  (∀ b : Bytes, b.length = 16 → storeBlock (loadBlock b) = b) ∧
  (∀ D : Data, loadBlock (storeBlock D) = D ∧ (storeBlock D).length = 16) ∧
  (∀ (D : Data) (k : Fin 4),
    (storeBlock D).getD k.val 0 = D.a.extractLsb' (8 * k.val) 8 ∧
    (storeBlock D).getD (4 + k.val) 0 = D.b.extractLsb' (8 * k.val) 8 ∧
    (storeBlock D).getD (8 + k.val) 0 = D.c.extractLsb' (8 * k.val) 8 ∧
    (storeBlock D).getD (12 + k.val) 0 = D.d.extractLsb' (8 * k.val) 8)

/-- R178: the 512-entry lookup selects `S0` below 256 and `S1` from 256 on, that is by bit 8, and indexes by the low byte. -/
def Obligations.CombinedSboxIsTheTwoHalves : Prop :=
  ∀ (S : SBox) (x : BitVec 9),
    (x.toNat < 256 → S x = sbox0 S (BitVec.ofNat 8 x.toNat)) ∧
    (256 ≤ x.toNat → S x = sbox1 S (BitVec.ofNat 8 (x.toNat - 256))) ∧
    S x = (if x.getLsbD 8 then sbox1 S (x.setWidth 8) else sbox0 S (x.setWidth 8))

/-! ## The key schedule -/

/-- R151: the first `t0` subkeys are the key words, big-endian, in order. -/
def Obligations.ExpandedKeyStartsWithTheKey : Prop :=
  ∀ key : Bytes, marsKeyOk key = true → ∀ w : Fin 40, w.val < key.length / 4 →
    (marsExpand key)[w.val] =
      be32 (key.getD (4 * w.val) 0) (key.getD (4 * w.val + 1) 0) (key.getD (4 * w.val + 2) 0) (key.getD (4 * w.val + 3) 0)

/-- R158: the schedule appends exactly `40 - t0` words to the key words, so it ends with forty, and these are the subkeys. -/
def Obligations.ScheduleYieldsFortyWords : Prop :=
  ∀ key : Bytes, marsKeyOk key = true →
    (∃ appended, expandWords key = keyWords key ++ appended ∧ appended.length = 40 - key.length / 4) ∧
    (expandWords key).length = 40 ∧ (marsExpand key).toList = expandWords key

/-- R160 and R152: the passes of the table, for each key length; the word appended at position `i` of pass `(j, tb, n)` is
`K[tb + i]`, computed from `K[i]`, the two words of R155 and the constant of `j`. The table is an inference of the spec's from
its decision D6 on the pass bound; the constants are those of R33. -/
def Obligations.ScheduleFollowsThePassTable : Prop :=
  (keyConstant 0 = 0x4d34d34d ∧ keyConstant 1 = 0xd34d34d3 ∧ keyConstant 2 = 0x34d34d34 ∧ keyConstant 3 = 0xd34d34d3) ∧
  ∀ key : Bytes, marsKeyOk key = true → ∀ j tb n : Nat, (j, tb, n) ∈ passTable (key.length / 4) → ∀ i, i < n →
    let K := expandWords key
    let t := tb + i
    let u := rotl (K.getD i 0 ^^^ K.getD ((i + t - 1) % t) 0) 3 ^^^ keyConstant j ^^^ K.getD ((i + t - 2) % t) 0
    K.getD t 0 = rotl u (u &&& 0x1f).toNat

/-- R161, an inference of the spec's: for a 16-byte key the last six subkeys repeat `K[10..15]`. -/
def Obligations.SixteenByteKeysRepeatSixSubkeys : Prop :=
  ∀ key : Bytes, key.length = 16 → ∀ m : Fin 6, (marsExpand key)[34 + m.val] = (marsExpand key)[10 + m.val]

/-! ## MARS on a block -/

/-- R177, an inference of the spec's: the corner cases of the E-function, for every S-box. -/
def Obligations.EFunctionCornerCases : Prop :=
  ∀ (S : SBox) (src k1 k2 : Word),
    eFunction S src k1 0 = ⟨S (nineBitIndex (src + k1)), src + k1, 0⟩ ∧
    (eFunction S 0 k1 k2).r = 0 ∧ (eFunction S 0 k1 k2).m = k1 ∧ eFunction S 0 0 0 = ⟨S 0, 0, 0⟩

/-- R172 and R181: the forward and the backward round, with every S-box index as a byte of `A` (of `A2` in the backward
round) and the condition of every round. -/
def Obligations.MixingRoundsReadTheBytesOfA : Prop :=
  ∀ (S : SBox) (i : Fin 8) (A B C Dv : Word),
    let s0 := fun (w : Word) (k : Nat) => S (BitVec.ofNat 9 (w.extractLsb' k 8).toNat)
    let s1 := fun (w : Word) (k : Nat) => S (BitVec.ofNat 9 (256 + (w.extractLsb' k 8).toNat))
    let B' := (B ^^^ s0 A 0) + s1 A 8
    let C' := C + s0 A 16
    let Dv' := Dv ^^^ s1 A 24
    let A' := if i = 1 ∨ i = 5 then rotr A 24 + B' else if i = 0 ∨ i = 4 then rotr A 24 + Dv' else rotr A 24
    let A2 := if i = 3 ∨ i = 7 then A - B else if i = 2 ∨ i = 6 then A - Dv else A
    fwdRound S i.val ⟨A, B, C, Dv⟩ = ⟨B', C', Dv', A'⟩ ∧
    bwdRound S i.val ⟨A, B, C, Dv⟩ =
      ⟨B ^^^ s1 A2 0, C - s0 A2 24, (Dv - s1 A2 16) ^^^ s0 A2 8, rotl A2 24⟩

/-- R175 and R176: the core round with its E-function, the arithmetic over naturals modulo `2^32`, the S-box index and the
rotation amounts as bit slices, and the subkeys `K[2i+4]` and `K[2i+5]`. -/
def Obligations.CoreRoundsFollowTheEFunction : Prop :=
  ∀ (S : SBox) (K : Subkeys) (i : Fin 16) (D : Data),
    let k1 := K.toList.getD (2 * i.val + 4) 0
    let k2 := K.toList.getD (2 * i.val + 5) 0
    let R := rotl (BitVec.ofNat 32 ((rotl D.a 13).toNat * k2.toNat)) 10
    let M := rotl (BitVec.ofNat 32 (D.a.toNat + k1.toNat)) (R.extractLsb' 5 5).toNat
    let L := rotl (S (M.extractLsb' 0 9) ^^^ BitVec.ofNat 32 (R.toNat / 32) ^^^ R) (R.extractLsb' 0 5).toNat
    eFunction S D.a k1 k2 = ⟨L, M, R⟩ ∧
    coreRound S K i D =
      if i.val < 8 then ⟨D.b + L, D.c + M, D.d ^^^ R, rotl D.a 13⟩ else ⟨D.b ^^^ R, D.c + M, D.d + L, rotl D.a 13⟩

/-- R207, an inference of the spec's: the three per-round identities, for every S-box, subkeys, data and round. -/
def Obligations.EveryRoundIsInverted : Prop :=
  ∀ (S : SBox) (K : Subkeys) (D : Data),
    (∀ i : Fin 8, fwdRoundInv S i.val (fwdRound S i.val D) = D) ∧
    (∀ i : Fin 16, coreRoundInv S K i (coreRound S K i D) = D) ∧
    (∀ i : Fin 8, bwdRoundInv S i.val (bwdRound S i.val D) = D)

/-- R207, an inference of the spec's, composed: MARS decryption inverts encryption, for every S-box, every content of `K` and
every block. -/
def Obligations.MarsDecryptInvertsMarsEncrypt : Prop :=
  ∀ (K : Subkeys) (S : SBox) (b : Bytes), b.length = 16 → marsDecrypt K S (marsEncrypt K S b) = b

/-- R130 and R131: encryption inverts decryption too, so `DecBlock` is a bijection of the blocks. -/
def Obligations.MarsEncryptInvertsMarsDecrypt : Prop :=
  ∀ (K : Subkeys) (S : SBox) (c : Bytes), c.length = 16 →
    (marsDecrypt K S c).length = 16 ∧ marsEncrypt K S (marsDecrypt K S c) = c

/-- R131 on the machine, for MARS and the external ciphers: ENCB, then DECB of its result, answers the block; and DECB, then
ENCB of its result, answers the block. In a coherent state the expanded key is that of a valid key. -/
def Obligations.BlockCommandsRoundTrip : Prop :=
  ∀ (s : State) (a : Alg) (bs : Nat) (cipher : BlockCipher), Coherent s → Keyed s a bs cipher → s.input.length = bs →
    (∃ t c u, exec .encb s = .next t ∧ t.response = some ⟨okCode, c⟩ ∧
      exec .decb { t with input := c } = .next u ∧ u.response = some ⟨okCode, s.input⟩) ∧
    (∃ t p u, exec .decb s = .next t ∧ t.response = some ⟨okCode, p⟩ ∧
      exec .encb { t with input := p } = .next u ∧ u.response = some ⟨okCode, s.input⟩)

/-! ## Padding -/

/-- R221: the formula of the pad length, which is 1 to `BS`, fits in a byte, and is `BS` for a message of whole blocks; the
padded length is the least multiple of `BS` above the message's, under every scheme (under ZEROS by R228, the spec's decision
D8). -/
def Obligations.PadLengthIsLeast : Prop :=
  ∀ bs len : Nat, 1 ≤ bs → bs ≤ 255 →
    padLength bs len = bs - len % bs ∧ (len % bs = 0 → padLength bs len = bs) ∧
    (∀ (p : Padding) (filler msg : Bytes), msg.length = len → filler.length = padDraws p (padLength bs len) →
      (padMessage p bs filler msg).length = len + padLength bs len) ∧
    1 ≤ padLength bs len ∧ padLength bs len ≤ bs ∧ padLength bs len < 256 ∧
    (len + padLength bs len) % bs = 0 ∧ ∀ m, len < m → m % bs = 0 → len + padLength bs len ≤ m

/-- R231, an inference of the spec's: unpadding inverts padding for the three counted schemes, every block size, every message
and every filler. -/
def Obligations.CountedPaddingRoundTrips : Prop :=
  ∀ (p : Padding) (bs : Nat) (filler msg : Bytes), p ≠ .zeros → 1 ≤ bs → bs ≤ 255 →
    filler.length = padDraws p (padLength bs msg.length) →
    unpadMessage p bs (padMessage p bs filler msg) = some msg

/-- R229 (the spec's decision D16) and R230: ZEROS strips every trailing zero byte and never fails; so the round trip gives a
message back when it is empty or ends in no zero byte, and without its trailing zeros otherwise. -/
def Obligations.ZerosPaddingStripsTrailingZeros : Prop :=
  (∀ (bs : Nat) (buf : Bytes), ∃ (kept : Bytes) (n : Nat),
    unpadMessage .zeros bs buf = some kept ∧ buf = kept ++ rep 0 n ∧ kept.getLast? ≠ some 0) ∧
  (∀ (bs : Nat) (filler msg : Bytes),
    unpadMessage .zeros bs (padMessage .zeros bs filler msg) = unpadMessage .zeros bs msg ∧
    (msg.getLast? ≠ some 0 → unpadMessage .zeros bs (padMessage .zeros bs filler msg) = some msg))

/-- R223, R225, R227 and R232: on whole blocks, each counted scheme accepts exactly the strings that end in a pad of its own
form, and returns what stands before it; the empty string is refused. The range of the count under ANSI_X923 and ISO_10126 and
the empty string are the spec's decision D15. -/
def Obligations.CountedSchemesAcceptTheirOwnPads : Prop :=
  ∀ (bs : Nat) (buf msg : Bytes), 1 ≤ bs → bs ≤ 255 → buf.length % bs = 0 →
    (unpadMessage .pkcs7 bs buf = some msg ↔
      ∃ n, 1 ≤ n ∧ n ≤ bs ∧ buf = msg ++ rep (BitVec.ofNat 8 n) n) ∧
    (unpadMessage .ansiX923 bs buf = some msg ↔
      ∃ n, 1 ≤ n ∧ n ≤ bs ∧ buf = msg ++ rep 0 (n - 1) ++ [BitVec.ofNat 8 n]) ∧
    (unpadMessage .iso10126 bs buf = some msg ↔
      ∃ n filler, 1 ≤ n ∧ n ≤ bs ∧ filler.length = n - 1 ∧ buf = msg ++ filler ++ [BitVec.ofNat 8 n])

/-! ## Modes -/

/-- R255 to R260: the equations of CBC, PCBC and CFB, block by block, in both directions, from `C_{-1} = IV` and, for PCBC,
`P_{-1} = 0`. Decryption chains the received ciphertext blocks; CFB calls `E` in both directions. -/
def Obligations.ChainedModeEquations : Prop :=
  ∀ (bs : Nat) (E D : Bytes → Bytes) (iv : Bytes) (xs : List Bytes) (j : Nat), j < xs.length →
    let enc := fun (m : Mode) (i : Nat) => (modeEncrypt m bs E iv xs).getD i []
    let dec := fun (m : Mode) (i : Nat) => (modeDecrypt m bs E D iv xs).getD i []
    let x := fun (i : Nat) => xs.getD i []
    (enc .cbc j = E (xorb (x j) (if j = 0 then iv else enc .cbc (j - 1)))) ∧
    (dec .cbc j = xorb (D (x j)) (if j = 0 then iv else x (j - 1))) ∧
    (enc .pcbc j = E (xorb (xorb (x j) (if j = 0 then iv else enc .pcbc (j - 1))) (if j = 0 then rep 0 bs else x (j - 1)))) ∧
    (dec .pcbc j =
      xorb (xorb (D (x j)) (if j = 0 then iv else x (j - 1))) (if j = 0 then rep 0 bs else dec .pcbc (j - 1))) ∧
    (enc .cfb j = xorb (x j) (E (if j = 0 then iv else enc .cfb (j - 1)))) ∧
    (dec .cfb j = xorb (x j) (E (if j = 0 then iv else x (j - 1))))

/-- R254, R261, R262: the equations of ECB, OFB and CTR, block by block, in both directions. OFB block `j` uses `E` applied
`j + 1` times to the IV (the spec's decision D24); CTR block `j` uses `E` of the IV plus `j`. -/
def Obligations.IndependentAndCounterModeEquations : Prop :=
  ∀ (bs : Nat) (E D : Bytes → Bytes) (iv : Bytes) (xs : List Bytes) (j : Nat), j < xs.length →
    let enc := fun (m : Mode) (i : Nat) => (modeEncrypt m bs E iv xs).getD i []
    let dec := fun (m : Mode) (i : Nat) => (modeDecrypt m bs E D iv xs).getD i []
    let x := fun (i : Nat) => xs.getD i []
    (enc .ecb j = E (x j)) ∧ (dec .ecb j = D (x j)) ∧
    (enc .ofb j = xorb (x j) (E^[j + 1] iv)) ∧ (dec .ofb j = xorb (x j) (E^[j + 1] iv)) ∧
    (enc .ctr j = xorb (x j) (E (ctrAdd iv j))) ∧ (dec .ctr j = xorb (x j) (E (ctrAdd iv j)))

/-- R263, the spec's decision D7: `CtrAdd` keeps the length and adds `j` to the big-endian number, modulo `256^BS`. -/
def Obligations.CtrAddCountsBigEndian : Prop :=
  ∀ (iv : Bytes) (j : Nat),
    (ctrAdd iv j).length = iv.length ∧ natOfBytes (ctrAdd iv j) = (natOfBytes iv + j) % 256 ^ iv.length

/-- R267: CFB, OFB and CTR never call `DecBlock`; OFB and CTR decrypt as they encrypt; and every mode answers as many blocks
as it is given. -/
def Obligations.StreamModesNeverCallDecBlock : Prop :=
  ∀ (bs : Nat) (E D D' : Bytes → Bytes) (iv : Bytes) (xs : List Bytes),
    (∀ m : Mode, m = .cfb ∨ m = .ofb ∨ m = .ctr → modeDecrypt m bs E D iv xs = modeDecrypt m bs E D' iv xs) ∧
    (∀ m : Mode, m = .ofb ∨ m = .ctr → modeDecrypt m bs E D iv xs = modeEncrypt m bs E iv xs) ∧
    (∀ m : Mode, (modeEncrypt m bs E iv xs).length = xs.length ∧ (modeDecrypt m bs E D iv xs).length = xs.length)

/-- R269, an inference of the spec's: what changing one ciphertext block `C_j` to `c'` does to each decrypted block, mode by
mode. A flipped bit of `C_j` is a set bit of `xorb C_j c'`. Under PCBC every later block differs by the one string `delta`,
made of `D C_j`, `D c'`, `C_j` and `c'`, so it changes unless that string is zero. -/
def Obligations.ChangedBlockPropagatesAsTheRulesSay : Prop :=
  ∀ (bs : Nat) (E D : Bytes → Bytes) (iv c' : Bytes) (cs : List Bytes) (j : Nat),
    (∀ b, b.length = bs → (E b).length = bs ∧ (D b).length = bs) → iv.length = bs → c'.length = bs →
    (∀ c ∈ cs, c.length = bs) → j < cs.length →
    let P := fun (m : Mode) (i : Nat) => (modeDecrypt m bs E D iv cs).getD i []
    let P' := fun (m : Mode) (i : Nat) => (modeDecrypt m bs E D iv (cs.set j c')).getD i []
    let C := fun (i : Nat) => cs.getD i []
    let flips := xorb (C j) c'
    let delta := xorb (xorb (D (C j)) (D c')) flips
    ((∀ i, i ≠ j → P' .ecb i = P .ecb i) ∧ P' .ecb j = D c') ∧
    ((∀ i, i ≠ j → i ≠ j + 1 → P' .cbc i = P .cbc i) ∧ P' .cbc j = xorb (D c') (if j = 0 then iv else C (j - 1)) ∧
      (j + 1 < cs.length → P' .cbc (j + 1) = xorb (P .cbc (j + 1)) flips)) ∧
    ((∀ i, i < j → P' .pcbc i = P .pcbc i) ∧
      P' .pcbc j =
        xorb (xorb (D c') (if j = 0 then iv else C (j - 1))) (if j = 0 then rep 0 bs else P .pcbc (j - 1)) ∧
      ∀ i, j < i → i < cs.length → xorb (P' .pcbc i) (P .pcbc i) = delta) ∧
    ((∀ i, i ≠ j → i ≠ j + 1 → P' .cfb i = P .cfb i) ∧ P' .cfb j = xorb (P .cfb j) flips ∧
      (j + 1 < cs.length → P' .cfb (j + 1) = xorb (C (j + 1)) (E c'))) ∧
    ((∀ i, i ≠ j → P' .ofb i = P .ofb i) ∧ P' .ofb j = xorb (P .ofb j) flips) ∧
    ((∀ i, i ≠ j → P' .ctr i = P .ctr i) ∧ P' .ctr j = xorb (P .ctr j) flips)

/-- R250: the length of the ciphertext, always at least one block (under ZEROS by the spec's decision D8). -/
def Obligations.CiphertextLengthIsTheNextMultiple : Prop :=
  ∀ (s t : State) (a : Alg) (bs : Nat) (cipher : BlockCipher) (m : Mode) (p : Padding) (v out : Bytes),
    Coherent s → MessageReady s a bs cipher m p v → exec .encm s = .next t → t.response = some ⟨okCode, out⟩ →
    out.length = s.input.length + bs - s.input.length % bs ∧ bs ≤ out.length

/-- R268, an inference of the spec's: DECM of the ciphertext ENCM answers returns the message, in every mode, under every
padding (with the premise of R230 under ZEROS), for MARS and the external ciphers, whatever was drawn. -/
def Obligations.MessageCommandsRoundTrip : Prop :=
  ∀ (s : State) (a : Alg) (bs : Nat) (cipher : BlockCipher) (m : Mode) (p : Padding) (v : Bytes),
    Coherent s → MessageReady s a bs cipher m p v → PaddingReversible p s.input →
    ∃ t ct u, exec .encm s = .next t ∧ t.response = some ⟨okCode, ct⟩ ∧
      exec .decm { t with input := ct } = .next u ∧ u.response = some ⟨okCode, s.input⟩

/-! ## Names and construction -/

/-- R84 to R87: a name resolves to a code exactly if its fold to upper case stands in the family's table with that code,
`RANDOM_DELTA` among the modes, and `MARS` among the algorithms where the factory exposes it; every other name is
UnsupportedConfigurationError; so names are matched without regard to ASCII case. The fold maps `a..z` to `A..Z` only, and a
name with a space is unknown. The case rule and the choice about `MARS` are the spec's decision D13. -/
def Obligations.NamesIgnoreAsciiCase : Prop :=
  (∀ (exposes : Bool) (name : NameText) (code : BitVec 4),
    (resolveAlg exposes name = .ok code ↔
      (name.map upperAscii, code) ∈ [(['D', 'E', 'S'], 0), (['D', 'E', 'A', 'L'], 1), (['R', 'C', '5'], 2),
        (['R', 'I', 'J', 'N', 'D', 'A', 'E', 'L'], 3)] ∨
      (exposes = true ∧ name.map upperAscii = ['M', 'A', 'R', 'S'] ∧ code = 4)) ∧
    (resolveMode name = .ok code ↔
      (name.map upperAscii, code) ∈ [(['E', 'C', 'B'], 0), (['C', 'B', 'C'], 1), (['P', 'C', 'B', 'C'], 2),
        (['C', 'F', 'B'], 3), (['O', 'F', 'B'], 4), (['C', 'T', 'R'], 5),
        (['R', 'A', 'N', 'D', 'O', 'M', '_', 'D', 'E', 'L', 'T', 'A'], 6)]) ∧
    (resolvePad name = .ok code ↔
      (name.map upperAscii, code) ∈ [(['P', 'K', 'C', 'S', '7'], 0), (['A', 'N', 'S', 'I', '_', 'X', '9', '2', '3'], 1),
        (['I', 'S', 'O', '_', '1', '0', '1', '2', '6'], 2), (['Z', 'E', 'R', 'O', 'S'], 3)])) ∧
  (∀ (exposes : Bool) (name : NameText) (e : Error),
    (resolveAlg exposes name = .error e → e = .unsupportedConfiguration) ∧
    (resolveMode name = .error e → e = .unsupportedConfiguration) ∧
    (resolvePad name = .error e → e = .unsupportedConfiguration)) ∧
  (∀ (exposes : Bool) (name : NameText),
    resolveAlg exposes (name.map upperAscii) = resolveAlg exposes name ∧
    resolveMode (name.map upperAscii) = resolveMode name ∧ resolvePad (name.map upperAscii) = resolvePad name) ∧
  (∀ n, n < 26 → upperAscii (Char.ofNat (97 + n)) = Char.ofNat (65 + n)) ∧
  (∀ c : Char, c.toNat < 97 ∨ 122 < c.toNat → upperAscii c = c) ∧
  resolveAlg true ['M', 'A', 'R', 'S'] = .ok 4 ∧
  resolveAlg false ['M', 'A', 'R', 'S'] = .error .unsupportedConfiguration ∧
  (∀ name : NameText, ' ' ∈ name → resolveMode name = .error .unsupportedConfiguration)

/-- R331 and R88 (the sequences are the spec's decision D1): CFG, then INIT and SETIV in either order, ready a MARS engine for
messages in the mode and padding asked for, and the three commands are gone from the model's list (log 1); so does the
software construction, with an IV in every mode and without one under ECB, from every state; and the IV helper, asked to,
loads the very bytes it returns. That a call stops at its first error is the model's choice (log 11). The helper's bytes are
named by the call that does not load them: that the call that loads them, from the same state, draws the same bytes is the
model's choice of a count of draws (log 6, unsafe where two runs are compared), for R126 lets two GENIV differ. -/
def Obligations.InitialisationOrderReadiesTheEngine : Prop :=
  (∀ (s : State) (key iv : Bytes) (m : Mode) (p : Padding) (keyAndIv rest : List Command),
    keyAndIv = [commandOf .init key, commandOf .setiv iv] ∨ keyAndIv = [commandOf .setiv iv, commandOf .init key] →
    s.commands = commandOf (.cfg (algCode .mars) (modeCode m) (padCode p)) [] :: keyAndIv ++ rest →
    marsKeyOk key = true → iv.length = 16 →
    ∃ t, Sys2Proof.core.run 3 s = .next t ∧ t.commands = rest ∧
      MessageReady t .mars 16 (marsCipher (marsExpand key)) m p (if m = .ecb then [] else iv)) ∧
  (∀ (s : State) (key iv : Bytes) (m : Mode) (p : Padding), marsKeyOk key = true → iv.length = 16 →
    ∃ t, runCall (.construct .mars (.chained m) p key iv) s = .ok (.next t) ∧
      MessageReady t .mars 16 (marsCipher (marsExpand key)) m p (if m = .ecb then [] else iv)) ∧
  (∀ (s : State) (key : Bytes) (p : Padding), marsKeyOk key = true →
    ∃ t, runCall (.constructEcbNoIv .mars p key) s = .ok (.next t) ∧
      MessageReady t .mars 16 (marsCipher (marsExpand key)) .ecb p []) ∧
  ∀ (s : State) (a : Alg) (n : BitVec 12), Configured s a n.toNat →
    ∃ u v t, runCall (.generateIv n false) s = .ok (.next u) ∧ u.response = some ⟨okCode, v⟩ ∧ u.iv = s.iv ∧
      runCall (.generateIv n true) s = .ok (.next t) ∧ t.ivv = true ∧ t.iv = some v
end

