-- ==== Sys2Proof/Laws/Arith.lean ====
section
/-! SUPPORT. What the word and byte-string operations do to one bit, one byte, one length: proofs about them cite these and
never unfold a rotation or a split again. -/

namespace Sys2Proof.Machine

variable {x y : Word} {n i : Nat}

theorem rotl_eq_rotateLeft (x : Word) (h : n < 32) : rotl x n = x.rotateLeft n := by
  unfold rotl
  split
  · subst n; ext i hi; simp [BitVec.getElem_rotateLeft]
  · rw [BitVec.rotateLeft_def, Nat.mod_eq_of_lt h]

/-- Bit `i` of a left rotation (R104). -/
theorem rotl_getLsbD (x : Word) (h : n < 32) (hi : i < 32) : (rotl x n).getLsbD i = x.getLsbD ((i + 32 - n) % 32) := by
  rw [rotl_eq_rotateLeft x h, BitVec.getLsbD_rotateLeft]
  simp only [Nat.mod_eq_of_lt h]
  by_cases hlt : i < n
  · simp only [hlt, decide_true, cond_true]; congr 1; omega
  · simp only [hlt, decide_false, cond_false, hi, decide_true, Bool.true_and]; congr 1; omega

/-- Bit `i` of a right rotation (R105). -/
theorem rotr_getLsbD (x : Word) (h : n < 32) (hi : i < 32) : (rotr x n).getLsbD i = x.getLsbD ((i + n) % 32) := by
  rw [rotr, rotl_getLsbD _ (by omega) hi]; congr 1; omega

theorem word_ext (h : ∀ i, i < 32 → x.getLsbD i = y.getLsbD i) : x = y := BitVec.eq_of_getLsbD_eq h

theorem xorb_length {a b : Bytes} : (xorb a b).length = min a.length b.length := by simp [xorb]

theorem xorb_getElem {a b : Bytes} (h : i < (xorb a b).length) :
    (xorb a b)[i] = a[i]'(by rw [xorb_length] at h; omega) ^^^ b[i]'(by rw [xorb_length] at h; omega) := by
  simp [xorb]

theorem bytesOfNat_length : ∀ n v, (bytesOfNat n v).length = n
  | 0, _ => rfl
  | n + 1, v => by simp [bytesOfNat, bytesOfNat_length n]

theorem natOfBytes_append_singleton (s : Bytes) (b : Byte) : natOfBytes (s ++ [b]) = natOfBytes s * 256 + b.toNat := by
  simp [natOfBytes]

/-- Splitting `n` whole blocks gives `n` strings of `bs` bytes whose concatenation is the string (R253). -/
theorem splitBlocks_spec {bs : Nat} (hbs : 1 ≤ bs) : ∀ n (s : Bytes), s.length = bs * n →
    (splitBlocks bs n s).flatten = s ∧ (splitBlocks bs n s).length = n ∧ ∀ b ∈ splitBlocks bs n s, b.length = bs
  | 0, s, h => by
    rw [Nat.mul_zero, List.length_eq_zero_iff] at h
    subst h; simp [splitBlocks]
  | n + 1, s, h => by
    rw [Nat.mul_succ] at h
    obtain ⟨h1, h2, h3⟩ := splitBlocks_spec hbs n (s.drop bs) (by rw [List.length_drop]; omega)
    refine ⟨by rw [splitBlocks, List.flatten_cons, h1, List.take_append_drop], by rw [splitBlocks, List.length_cons, h2], ?_⟩
    intro b hb
    rcases List.mem_cons.1 hb with rfl | hb
    · rw [List.length_take]; omega
    · exact h3 b hb

end Sys2Proof.Machine
end

