-- ==== Sys2Proof/Laws/Decode.lean ====
section
/-! SUPPORT. What the decoder reads and what the encoder writes, as numbers: proofs about command words cite these and are
then linear arithmetic. -/

namespace Sys2Proof

variable {w : Word} {i j : Instr}

theorem opcField_toNat (w : Word) : (opcField w).toNat = w.toNat / 2 ^ 24 := by
  have := w.isLt
  simp [opcField, BitVec.extractLsb'_toNat, Nat.shiftRight_eq_div_pow]; omega

theorem algField_toNat (w : Word) : (algField w).toNat = w.toNat / 2 ^ 20 % 2 ^ 4 := by
  simp [algField, BitVec.extractLsb'_toNat, Nat.shiftRight_eq_div_pow]

theorem modeField_toNat (w : Word) : (modeField w).toNat = w.toNat / 2 ^ 16 % 2 ^ 4 := by
  simp [modeField, BitVec.extractLsb'_toNat, Nat.shiftRight_eq_div_pow]

theorem padField_toNat (w : Word) : (padField w).toNat = w.toNat / 2 ^ 12 % 2 ^ 4 := by
  simp [padField, BitVec.extractLsb'_toNat, Nat.shiftRight_eq_div_pow]

theorem countField_toNat (w : Word) : (countField w).toNat = w.toNat % 2 ^ 12 := by
  simp [countField, BitVec.extractLsb'_toNat, Nat.shiftRight_eq_div_pow]

/-- The word that `packWord` makes, as the sum of its shifted fields. -/
theorem packWord_toNat (o : BitVec 8) (a m p : BitVec 4) (n : BitVec 12) :
    (packWord o a m p n).toNat =
      o.toNat * 2 ^ 24 + a.toNat * 2 ^ 20 + m.toNat * 2 ^ 16 + p.toNat * 2 ^ 12 + n.toNat := by
  have := o.isLt; have := a.isLt; have := m.isLt; have := p.isLt; have := n.isLt
  simp only [packWord, BitVec.toNat_append]
  rw [← Nat.shiftLeft_add_eq_or_of_lt (by omega), ← Nat.shiftLeft_add_eq_or_of_lt (by omega),
    ← Nat.shiftLeft_add_eq_or_of_lt (by omega), ← Nat.shiftLeft_add_eq_or_of_lt (by omega)]
  simp only [Nat.shiftLeft_eq]; omega

/-- Reading the five fields of a packed word gives them back. -/
theorem fields_packWord (o : BitVec 8) (a m p : BitVec 4) (n : BitVec 12) :
    opcField (packWord o a m p n) = o ∧ algField (packWord o a m p n) = a ∧ modeField (packWord o a m p n) = m ∧
      padField (packWord o a m p n) = p ∧ countField (packWord o a m p n) = n := by
  have := o.isLt; have := a.isLt; have := m.isLt; have := p.isLt; have := n.isLt
  refine ⟨?_, ?_, ?_, ?_, ?_⟩ <;> apply BitVec.eq_of_toNat_eq <;>
    simp only [opcField_toNat, algField_toNat, modeField_toNat, padField_toNat, countField_toNat, packWord_toNat] <;> omega

theorem noFields_iff (w : Word) : noFields w = true ↔ w.toNat % 2 ^ 24 = 0 := by
  simp [noFields, ← BitVec.toNat_inj, BitVec.extractLsb'_toNat]

theorem genivUnused_iff (w : Word) : (w.extractLsb' 12 12 == (0 : BitVec 12)) = true ↔ w.toNat / 2 ^ 12 % 2 ^ 12 = 0 := by
  simp [← BitVec.toNat_inj, BitVec.extractLsb'_toNat, Nat.shiftRight_eq_div_pow]

theorem cfgUnused_iff (w : Word) : (countField w == 0) = true ↔ w.toNat % 2 ^ 12 = 0 := by
  simp [← BitVec.toNat_inj, countField_toNat]

theorem decodePlain_ok (h : decodePlain w j = .ok i) : i = j ∧ w.toNat % 2 ^ 24 = 0 := by
  unfold decodePlain at h
  split at h
  · cases h; exact ⟨rfl, (noFields_iff w).1 ‹_›⟩
  · cases h

theorem decodeCfg_ok (h : decodeCfg w = .ok i) :
    i = .cfg (algField w) (modeField w) (padField w) ∧ w.toNat % 2 ^ 12 = 0 := by
  unfold decodeCfg at h
  split at h
  · cases h; exact ⟨rfl, (cfgUnused_iff w).1 ‹_›⟩
  · cases h

theorem decodeGeniv_ok (h : decodeGeniv w = .ok i) : i = .geniv (countField w) ∧ w.toNat / 2 ^ 12 % 2 ^ 12 = 0 := by
  unfold decodeGeniv at h
  split at h
  · cases h; exact ⟨rfl, (genivUnused_iff w).1 ‹_›⟩
  · cases h

/-- Everything a word that decodes says: its operation code, the fields of the command, and the unused bits zero. -/
theorem decodeWord_ok (h : decodeWord w = .ok i) :
    opcField w = opcode i ∧
      match i with
      | .cfg a m p => algField w = a ∧ modeField w = m ∧ padField w = p ∧ w.toNat % 2 ^ 12 = 0
      | .geniv n => countField w = n ∧ w.toNat / 2 ^ 12 % 2 ^ 12 = 0
      | .reset | .init | .setiv | .blksz | .rdkey | .encb | .decb | .encm | .decm => w.toNat % 2 ^ 24 = 0 := by
  simp only [decodeWord] at h
  repeat' split at h
  all_goals first
    | (rename_i ho; obtain ⟨rfl, h2⟩ := decodePlain_ok h; exact ⟨ho, h2⟩)
    | (rename_i ho; obtain ⟨rfl, h2⟩ := decodeCfg_ok h; exact ⟨ho, rfl, rfl, rfl, h2⟩)
    | (rename_i ho; obtain ⟨rfl, h2⟩ := decodeGeniv_ok h; exact ⟨ho, rfl, h2⟩)
    | cases h

end Sys2Proof
end

