-- ==== Sys2Proof/Laws/State.lean ====
section
/-! SUPPORT. One lemma per field per update of the state, so that no proof unfolds a record update. -/

namespace Sys2Proof.Machine

@[simp] theorem State.accept_cfgd (c : Command) (rest : List Command) (s : State) : (s.accept c rest).cfgd = s.cfgd := rfl
@[simp] theorem State.accept_inited (c : Command) (rest : List Command) (s : State) : (s.accept c rest).inited = s.inited := rfl
@[simp] theorem State.accept_ivv (c : Command) (rest : List Command) (s : State) : (s.accept c rest).ivv = s.ivv := rfl
@[simp] theorem State.accept_alg (c : Command) (rest : List Command) (s : State) : (s.accept c rest).alg = s.alg := rfl
@[simp] theorem State.accept_mode (c : Command) (rest : List Command) (s : State) : (s.accept c rest).mode = s.mode := rfl
@[simp] theorem State.accept_pad (c : Command) (rest : List Command) (s : State) : (s.accept c rest).pad = s.pad := rfl
@[simp] theorem State.accept_k (c : Command) (rest : List Command) (s : State) : (s.accept c rest).k = s.k := rfl
@[simp] theorem State.accept_xk (c : Command) (rest : List Command) (s : State) : (s.accept c rest).xk = s.xk := rfl
@[simp] theorem State.accept_iv (c : Command) (rest : List Command) (s : State) : (s.accept c rest).iv = s.iv := rfl
@[simp] theorem State.accept_draws (c : Command) (rest : List Command) (s : State) : (s.accept c rest).draws = s.draws := rfl
@[simp] theorem State.accept_commands (c : Command) (rest : List Command) (s : State) : (s.accept c rest).commands = rest := rfl
@[simp] theorem State.accept_input (c : Command) (rest : List Command) (s : State) : (s.accept c rest).input = c.operand := rfl
@[simp] theorem State.accept_response (c : Command) (rest : List Command) (s : State) : (s.accept c rest).response = s.response := rfl

@[simp] theorem State.respond_cfgd (st : Byte) (out : Bytes) (s : State) : (s.respond st out).cfgd = s.cfgd := rfl
@[simp] theorem State.respond_inited (st : Byte) (out : Bytes) (s : State) : (s.respond st out).inited = s.inited := rfl
@[simp] theorem State.respond_ivv (st : Byte) (out : Bytes) (s : State) : (s.respond st out).ivv = s.ivv := rfl
@[simp] theorem State.respond_alg (st : Byte) (out : Bytes) (s : State) : (s.respond st out).alg = s.alg := rfl
@[simp] theorem State.respond_mode (st : Byte) (out : Bytes) (s : State) : (s.respond st out).mode = s.mode := rfl
@[simp] theorem State.respond_pad (st : Byte) (out : Bytes) (s : State) : (s.respond st out).pad = s.pad := rfl
@[simp] theorem State.respond_k (st : Byte) (out : Bytes) (s : State) : (s.respond st out).k = s.k := rfl
@[simp] theorem State.respond_xk (st : Byte) (out : Bytes) (s : State) : (s.respond st out).xk = s.xk := rfl
@[simp] theorem State.respond_iv (st : Byte) (out : Bytes) (s : State) : (s.respond st out).iv = s.iv := rfl
@[simp] theorem State.respond_draws (st : Byte) (out : Bytes) (s : State) : (s.respond st out).draws = s.draws := rfl
@[simp] theorem State.respond_commands (st : Byte) (out : Bytes) (s : State) : (s.respond st out).commands = s.commands := rfl
@[simp] theorem State.respond_input (st : Byte) (out : Bytes) (s : State) : (s.respond st out).input = [] := rfl
@[simp] theorem State.respond_response (st : Byte) (out : Bytes) (s : State) : (s.respond st out).response = some ⟨st, out⟩ := rfl

@[simp] theorem State.succeed_cfgd (out : Bytes) (s : State) : (s.succeed out).cfgd = s.cfgd := rfl
@[simp] theorem State.succeed_inited (out : Bytes) (s : State) : (s.succeed out).inited = s.inited := rfl
@[simp] theorem State.succeed_ivv (out : Bytes) (s : State) : (s.succeed out).ivv = s.ivv := rfl
@[simp] theorem State.succeed_alg (out : Bytes) (s : State) : (s.succeed out).alg = s.alg := rfl
@[simp] theorem State.succeed_mode (out : Bytes) (s : State) : (s.succeed out).mode = s.mode := rfl
@[simp] theorem State.succeed_pad (out : Bytes) (s : State) : (s.succeed out).pad = s.pad := rfl
@[simp] theorem State.succeed_k (out : Bytes) (s : State) : (s.succeed out).k = s.k := rfl
@[simp] theorem State.succeed_xk (out : Bytes) (s : State) : (s.succeed out).xk = s.xk := rfl
@[simp] theorem State.succeed_iv (out : Bytes) (s : State) : (s.succeed out).iv = s.iv := rfl
@[simp] theorem State.succeed_draws (out : Bytes) (s : State) : (s.succeed out).draws = s.draws := rfl
@[simp] theorem State.succeed_commands (out : Bytes) (s : State) : (s.succeed out).commands = s.commands := rfl
@[simp] theorem State.succeed_input (out : Bytes) (s : State) : (s.succeed out).input = [] := rfl
@[simp] theorem State.succeed_response (out : Bytes) (s : State) : (s.succeed out).response = some ⟨okCode, out⟩ := rfl

@[simp] theorem State.raise_cfgd (e : Error) (s : State) : (s.raise e).cfgd = s.cfgd := rfl
@[simp] theorem State.raise_inited (e : Error) (s : State) : (s.raise e).inited = s.inited := rfl
@[simp] theorem State.raise_ivv (e : Error) (s : State) : (s.raise e).ivv = s.ivv := rfl
@[simp] theorem State.raise_alg (e : Error) (s : State) : (s.raise e).alg = s.alg := rfl
@[simp] theorem State.raise_mode (e : Error) (s : State) : (s.raise e).mode = s.mode := rfl
@[simp] theorem State.raise_pad (e : Error) (s : State) : (s.raise e).pad = s.pad := rfl
@[simp] theorem State.raise_k (e : Error) (s : State) : (s.raise e).k = s.k := rfl
@[simp] theorem State.raise_xk (e : Error) (s : State) : (s.raise e).xk = s.xk := rfl
@[simp] theorem State.raise_iv (e : Error) (s : State) : (s.raise e).iv = s.iv := rfl
@[simp] theorem State.raise_draws (e : Error) (s : State) : (s.raise e).draws = s.draws := rfl
@[simp] theorem State.raise_commands (e : Error) (s : State) : (s.raise e).commands = s.commands := rfl
@[simp] theorem State.raise_input (e : Error) (s : State) : (s.raise e).input = [] := rfl
@[simp] theorem State.raise_response (e : Error) (s : State) : (s.raise e).response = some ⟨e.code, []⟩ := rfl

@[simp] theorem State.clear_cfgd (s : State) : (s.clear).cfgd = false := rfl
@[simp] theorem State.clear_inited (s : State) : (s.clear).inited = false := rfl
@[simp] theorem State.clear_ivv (s : State) : (s.clear).ivv = false := rfl
@[simp] theorem State.clear_alg (s : State) : (s.clear).alg = none := rfl
@[simp] theorem State.clear_mode (s : State) : (s.clear).mode = none := rfl
@[simp] theorem State.clear_pad (s : State) : (s.clear).pad = none := rfl
@[simp] theorem State.clear_k (s : State) : (s.clear).k = none := rfl
@[simp] theorem State.clear_xk (s : State) : (s.clear).xk = none := rfl
@[simp] theorem State.clear_iv (s : State) : (s.clear).iv = none := rfl
@[simp] theorem State.clear_draws (s : State) : (s.clear).draws = s.draws := rfl
@[simp] theorem State.clear_commands (s : State) : (s.clear).commands = s.commands := rfl
@[simp] theorem State.clear_input (s : State) : (s.clear).input = s.input := rfl
@[simp] theorem State.clear_response (s : State) : (s.clear).response = s.response := rfl

@[simp] theorem State.configure_cfgd (a : Alg) (m : Mode) (p : Padding) (s : State) : (s.configure a m p).cfgd = true := rfl
@[simp] theorem State.configure_inited (a : Alg) (m : Mode) (p : Padding) (s : State) : (s.configure a m p).inited = false := rfl
@[simp] theorem State.configure_ivv (a : Alg) (m : Mode) (p : Padding) (s : State) : (s.configure a m p).ivv = false := rfl
@[simp] theorem State.configure_alg (a : Alg) (m : Mode) (p : Padding) (s : State) : (s.configure a m p).alg = some a := rfl
@[simp] theorem State.configure_mode (a : Alg) (m : Mode) (p : Padding) (s : State) : (s.configure a m p).mode = some m := rfl
@[simp] theorem State.configure_pad (a : Alg) (m : Mode) (p : Padding) (s : State) : (s.configure a m p).pad = some p := rfl
@[simp] theorem State.configure_k (a : Alg) (m : Mode) (p : Padding) (s : State) : (s.configure a m p).k = none := rfl
@[simp] theorem State.configure_xk (a : Alg) (m : Mode) (p : Padding) (s : State) : (s.configure a m p).xk = none := rfl
@[simp] theorem State.configure_iv (a : Alg) (m : Mode) (p : Padding) (s : State) : (s.configure a m p).iv = none := rfl
@[simp] theorem State.configure_draws (a : Alg) (m : Mode) (p : Padding) (s : State) : (s.configure a m p).draws = s.draws := rfl
@[simp] theorem State.configure_commands (a : Alg) (m : Mode) (p : Padding) (s : State) : (s.configure a m p).commands = s.commands := rfl
@[simp] theorem State.configure_input (a : Alg) (m : Mode) (p : Padding) (s : State) : (s.configure a m p).input = s.input := rfl
@[simp] theorem State.configure_response (a : Alg) (m : Mode) (p : Padding) (s : State) : (s.configure a m p).response = s.response := rfl

@[simp] theorem State.loadSubkeys_cfgd (K : Subkeys) (s : State) : (s.loadSubkeys K).cfgd = s.cfgd := rfl
@[simp] theorem State.loadSubkeys_inited (K : Subkeys) (s : State) : (s.loadSubkeys K).inited = true := rfl
@[simp] theorem State.loadSubkeys_ivv (K : Subkeys) (s : State) : (s.loadSubkeys K).ivv = s.ivv := rfl
@[simp] theorem State.loadSubkeys_alg (K : Subkeys) (s : State) : (s.loadSubkeys K).alg = s.alg := rfl
@[simp] theorem State.loadSubkeys_mode (K : Subkeys) (s : State) : (s.loadSubkeys K).mode = s.mode := rfl
@[simp] theorem State.loadSubkeys_pad (K : Subkeys) (s : State) : (s.loadSubkeys K).pad = s.pad := rfl
@[simp] theorem State.loadSubkeys_k (K : Subkeys) (s : State) : (s.loadSubkeys K).k = some K := rfl
@[simp] theorem State.loadSubkeys_xk (K : Subkeys) (s : State) : (s.loadSubkeys K).xk = s.xk := rfl
@[simp] theorem State.loadSubkeys_iv (K : Subkeys) (s : State) : (s.loadSubkeys K).iv = s.iv := rfl
@[simp] theorem State.loadSubkeys_draws (K : Subkeys) (s : State) : (s.loadSubkeys K).draws = s.draws := rfl
@[simp] theorem State.loadSubkeys_commands (K : Subkeys) (s : State) : (s.loadSubkeys K).commands = s.commands := rfl
@[simp] theorem State.loadSubkeys_input (K : Subkeys) (s : State) : (s.loadSubkeys K).input = s.input := rfl
@[simp] theorem State.loadSubkeys_response (K : Subkeys) (s : State) : (s.loadSubkeys K).response = s.response := rfl

@[simp] theorem State.loadExternalKey_cfgd (x : Bytes) (s : State) : (s.loadExternalKey x).cfgd = s.cfgd := rfl
@[simp] theorem State.loadExternalKey_inited (x : Bytes) (s : State) : (s.loadExternalKey x).inited = true := rfl
@[simp] theorem State.loadExternalKey_ivv (x : Bytes) (s : State) : (s.loadExternalKey x).ivv = s.ivv := rfl
@[simp] theorem State.loadExternalKey_alg (x : Bytes) (s : State) : (s.loadExternalKey x).alg = s.alg := rfl
@[simp] theorem State.loadExternalKey_mode (x : Bytes) (s : State) : (s.loadExternalKey x).mode = s.mode := rfl
@[simp] theorem State.loadExternalKey_pad (x : Bytes) (s : State) : (s.loadExternalKey x).pad = s.pad := rfl
@[simp] theorem State.loadExternalKey_k (x : Bytes) (s : State) : (s.loadExternalKey x).k = s.k := rfl
@[simp] theorem State.loadExternalKey_xk (x : Bytes) (s : State) : (s.loadExternalKey x).xk = some x := rfl
@[simp] theorem State.loadExternalKey_iv (x : Bytes) (s : State) : (s.loadExternalKey x).iv = s.iv := rfl
@[simp] theorem State.loadExternalKey_draws (x : Bytes) (s : State) : (s.loadExternalKey x).draws = s.draws := rfl
@[simp] theorem State.loadExternalKey_commands (x : Bytes) (s : State) : (s.loadExternalKey x).commands = s.commands := rfl
@[simp] theorem State.loadExternalKey_input (x : Bytes) (s : State) : (s.loadExternalKey x).input = s.input := rfl
@[simp] theorem State.loadExternalKey_response (x : Bytes) (s : State) : (s.loadExternalKey x).response = s.response := rfl

@[simp] theorem State.loadIv_cfgd (v : Bytes) (s : State) : (s.loadIv v).cfgd = s.cfgd := rfl
@[simp] theorem State.loadIv_inited (v : Bytes) (s : State) : (s.loadIv v).inited = s.inited := rfl
@[simp] theorem State.loadIv_ivv (v : Bytes) (s : State) : (s.loadIv v).ivv = true := rfl
@[simp] theorem State.loadIv_alg (v : Bytes) (s : State) : (s.loadIv v).alg = s.alg := rfl
@[simp] theorem State.loadIv_mode (v : Bytes) (s : State) : (s.loadIv v).mode = s.mode := rfl
@[simp] theorem State.loadIv_pad (v : Bytes) (s : State) : (s.loadIv v).pad = s.pad := rfl
@[simp] theorem State.loadIv_k (v : Bytes) (s : State) : (s.loadIv v).k = s.k := rfl
@[simp] theorem State.loadIv_xk (v : Bytes) (s : State) : (s.loadIv v).xk = s.xk := rfl
@[simp] theorem State.loadIv_iv (v : Bytes) (s : State) : (s.loadIv v).iv = some v := rfl
@[simp] theorem State.loadIv_draws (v : Bytes) (s : State) : (s.loadIv v).draws = s.draws := rfl
@[simp] theorem State.loadIv_commands (v : Bytes) (s : State) : (s.loadIv v).commands = s.commands := rfl
@[simp] theorem State.loadIv_input (v : Bytes) (s : State) : (s.loadIv v).input = s.input := rfl
@[simp] theorem State.loadIv_response (v : Bytes) (s : State) : (s.loadIv v).response = s.response := rfl

@[simp] theorem State.advanceDraws_cfgd (n : Nat) (s : State) : (s.advanceDraws n).cfgd = s.cfgd := rfl
@[simp] theorem State.advanceDraws_inited (n : Nat) (s : State) : (s.advanceDraws n).inited = s.inited := rfl
@[simp] theorem State.advanceDraws_ivv (n : Nat) (s : State) : (s.advanceDraws n).ivv = s.ivv := rfl
@[simp] theorem State.advanceDraws_alg (n : Nat) (s : State) : (s.advanceDraws n).alg = s.alg := rfl
@[simp] theorem State.advanceDraws_mode (n : Nat) (s : State) : (s.advanceDraws n).mode = s.mode := rfl
@[simp] theorem State.advanceDraws_pad (n : Nat) (s : State) : (s.advanceDraws n).pad = s.pad := rfl
@[simp] theorem State.advanceDraws_k (n : Nat) (s : State) : (s.advanceDraws n).k = s.k := rfl
@[simp] theorem State.advanceDraws_xk (n : Nat) (s : State) : (s.advanceDraws n).xk = s.xk := rfl
@[simp] theorem State.advanceDraws_iv (n : Nat) (s : State) : (s.advanceDraws n).iv = s.iv := rfl
@[simp] theorem State.advanceDraws_draws (n : Nat) (s : State) : (s.advanceDraws n).draws = s.draws + n := rfl
@[simp] theorem State.advanceDraws_commands (n : Nat) (s : State) : (s.advanceDraws n).commands = s.commands := rfl
@[simp] theorem State.advanceDraws_input (n : Nat) (s : State) : (s.advanceDraws n).input = s.input := rfl
@[simp] theorem State.advanceDraws_response (n : Nat) (s : State) : (s.advanceDraws n).response = s.response := rfl

@[simp] theorem State.issueFirst_cfgd (c : Command) (s : State) : (s.issueFirst c).cfgd = s.cfgd := rfl
@[simp] theorem State.issueFirst_inited (c : Command) (s : State) : (s.issueFirst c).inited = s.inited := rfl
@[simp] theorem State.issueFirst_ivv (c : Command) (s : State) : (s.issueFirst c).ivv = s.ivv := rfl
@[simp] theorem State.issueFirst_alg (c : Command) (s : State) : (s.issueFirst c).alg = s.alg := rfl
@[simp] theorem State.issueFirst_mode (c : Command) (s : State) : (s.issueFirst c).mode = s.mode := rfl
@[simp] theorem State.issueFirst_pad (c : Command) (s : State) : (s.issueFirst c).pad = s.pad := rfl
@[simp] theorem State.issueFirst_k (c : Command) (s : State) : (s.issueFirst c).k = s.k := rfl
@[simp] theorem State.issueFirst_xk (c : Command) (s : State) : (s.issueFirst c).xk = s.xk := rfl
@[simp] theorem State.issueFirst_iv (c : Command) (s : State) : (s.issueFirst c).iv = s.iv := rfl
@[simp] theorem State.issueFirst_draws (c : Command) (s : State) : (s.issueFirst c).draws = s.draws := rfl
@[simp] theorem State.issueFirst_commands (c : Command) (s : State) : (s.issueFirst c).commands = c :: s.commands := rfl
@[simp] theorem State.issueFirst_input (c : Command) (s : State) : (s.issueFirst c).input = s.input := rfl
@[simp] theorem State.issueFirst_response (c : Command) (s : State) : (s.issueFirst c).response = s.response := rfl

@[simp] theorem State.issue_cfgd (cs : List Command) (s : State) : (s.issue cs).cfgd = s.cfgd := rfl
@[simp] theorem State.issue_inited (cs : List Command) (s : State) : (s.issue cs).inited = s.inited := rfl
@[simp] theorem State.issue_ivv (cs : List Command) (s : State) : (s.issue cs).ivv = s.ivv := rfl
@[simp] theorem State.issue_alg (cs : List Command) (s : State) : (s.issue cs).alg = s.alg := rfl
@[simp] theorem State.issue_mode (cs : List Command) (s : State) : (s.issue cs).mode = s.mode := rfl
@[simp] theorem State.issue_pad (cs : List Command) (s : State) : (s.issue cs).pad = s.pad := rfl
@[simp] theorem State.issue_k (cs : List Command) (s : State) : (s.issue cs).k = s.k := rfl
@[simp] theorem State.issue_xk (cs : List Command) (s : State) : (s.issue cs).xk = s.xk := rfl
@[simp] theorem State.issue_iv (cs : List Command) (s : State) : (s.issue cs).iv = s.iv := rfl
@[simp] theorem State.issue_draws (cs : List Command) (s : State) : (s.issue cs).draws = s.draws := rfl
@[simp] theorem State.issue_commands (cs : List Command) (s : State) : (s.issue cs).commands = s.commands ++ cs := rfl
@[simp] theorem State.issue_input (cs : List Command) (s : State) : (s.issue cs).input = s.input := rfl
@[simp] theorem State.issue_response (cs : List Command) (s : State) : (s.issue cs).response = s.response := rfl

@[simp] theorem State.reset_cfgd : State.reset.cfgd = false := rfl
@[simp] theorem State.reset_inited : State.reset.inited = false := rfl
@[simp] theorem State.reset_ivv : State.reset.ivv = false := rfl
@[simp] theorem State.reset_alg : State.reset.alg = none := rfl
@[simp] theorem State.reset_mode : State.reset.mode = none := rfl
@[simp] theorem State.reset_pad : State.reset.pad = none := rfl
@[simp] theorem State.reset_k : State.reset.k = none := rfl
@[simp] theorem State.reset_xk : State.reset.xk = none := rfl
@[simp] theorem State.reset_iv : State.reset.iv = none := rfl
@[simp] theorem State.reset_draws : State.reset.draws = 0 := rfl
@[simp] theorem State.reset_commands : State.reset.commands = [] := rfl
@[simp] theorem State.reset_input : State.reset.input = [] := rfl
@[simp] theorem State.reset_response : State.reset.response = none := rfl

end Sys2Proof.Machine
end

