-- ==== Sys2Proof/Laws/Ops.lean ====
section
/-! SUPPORT. What each guard of Machine/Flags.lean and Machine/Cipher.lean can answer, once: it answers a next state exactly
in these cases. Proofs about a command cite these and never unfold a guard. -/

namespace Sys2Proof.Machine

variable {s t : State} {r : Result}

@[simp] theorem require_true {e : Error} : require true e s r = r := rfl

@[simp] theorem require_false {e : Error} : require false e s r = .next (s.raise e) := rfl

theorem require_eq_next {ok : Bool} {e : Error} :
    require ok e s r = .next t ↔ (ok = true ∧ r = .next t) ∨ (ok = false ∧ t = s.raise e) := by
  cases ok <;> simp [eq_comm]

theorem whenNoOperand_eq_next :
    whenNoOperand s r = .next t ↔ (s.input = [] ∧ r = .next t) ∨ (s.input ≠ [] ∧ t = s.raise .unsupportedConfiguration) := by
  simp [whenNoOperand, require_eq_next, List.isEmpty_iff]

theorem withAlg_eq_next {f : Alg → Result} : withAlg s f = .next t ↔ ∃ a, s.alg = some a ∧ f a = .next t := by
  unfold withAlg; split <;> simp_all

theorem whenConfigured_eq_next {f : Alg → Result} :
    whenConfigured s f = .next t ↔
      (s.cfgd = true ∧ ∃ a, s.alg = some a ∧ f a = .next t) ∨ (s.cfgd = false ∧ t = s.raise .uninitializedCipher) := by
  simp [whenConfigured, require_eq_next, withAlg_eq_next]

theorem withExternal_eq_next {c : ExternalCipher} {f : ExtCipher → Result} :
    withExternal c f = .next t ↔ ∃ x, Config.ext c = some x ∧ f x = .next t := by
  unfold withExternal; split <;> simp_all

theorem withBlockSize_eq_next {a : Alg} {f : Nat → Result} :
    withBlockSize a f = .next t ↔ ∃ bs, algBlockSize a = some bs ∧ f bs = .next t := by
  cases a <;> simp [withBlockSize, algBlockSize, withExternal_eq_next]

theorem whenInited_eq_next :
    whenInited s r = .next t ↔
      (s.inited = true ∧ r = .next t) ∨ (s.inited = false ∧ t = s.raise .uninitializedCipher) := by
  simp [whenInited, require_eq_next]

theorem withMode_eq_next {f : Mode → Result} : withMode s f = .next t ↔ ∃ m, s.mode = some m ∧ f m = .next t := by
  unfold withMode; split <;> simp_all

theorem withPadding_eq_next {f : Padding → Result} :
    withPadding s f = .next t ↔ ∃ p, s.pad = some p ∧ f p = .next t := by
  unfold withPadding; split <;> simp_all

theorem withSubkeys_eq_next {f : Subkeys → Result} :
    withSubkeys s f = .next t ↔ ∃ K, s.k = some K ∧ f K = .next t := by
  unfold withSubkeys; split <;> simp_all

theorem withExternalKey_eq_next {f : Bytes → Result} :
    withExternalKey s f = .next t ↔ ∃ xk, s.xk = some xk ∧ f xk = .next t := by
  unfold withExternalKey; split <;> simp_all

theorem withIv_eq_next {f : Bytes → Result} : withIv s f = .next t ↔ ∃ v, s.iv = some v ∧ f v = .next t := by
  unfold withIv; split <;> simp_all

theorem whenIvReady_eq_next {m : Mode} {f : Bytes → Result} :
    whenIvReady s m f = .next t ↔
      (m = .ecb ∧ f [] = .next t) ∨
      (m ≠ .ecb ∧ s.ivv = true ∧ ∃ v, s.iv = some v ∧ f v = .next t) ∨
      (m ≠ .ecb ∧ s.ivv = false ∧ t = s.raise .uninitializedCipher) := by
  cases m <;> simp [whenIvReady, require_eq_next, withIv_eq_next]

theorem withCipher_eq_next {a : Alg} {f : BlockCipher → Result} :
    withCipher s a f = .next t ↔
      (a = .mars ∧ ∃ K, s.k = some K ∧ f (marsCipher K) = .next t) ∨
      (∃ c x xk, a = .external c ∧ Config.ext c = some x ∧ s.xk = some xk ∧ f (externalCipher x xk) = .next t) := by
  cases a <;> simp [withCipher, withSubkeys_eq_next, withExternal_eq_next, withExternalKey_eq_next]

theorem requestedConfig_eq_some {alg mode pad : BitVec 4} {q : Alg × Mode × Padding} :
    requestedConfig alg mode pad = some q ↔
      algOfCode alg = some q.1 ∧ modeOfCode mode = some q.2.1 ∧ padOfCode pad = some q.2.2 ∧ algPresent q.1 = true := by
  obtain ⟨a, m, p⟩ := q
  unfold requestedConfig
  cases ha : algOfCode alg with
  | none => simp
  | some a' =>
    cases hm : modeOfCode mode with
    | none => simp
    | some m' =>
      cases hp : padOfCode pad with
      | none => simp
      | some p' =>
        simp only [Option.ite_none_right_eq_some, Option.some.injEq, Prod.mk.injEq]
        constructor
        · rintro ⟨hpres, rfl, rfl, rfl⟩; exact ⟨rfl, rfl, rfl, hpres⟩
        · rintro ⟨rfl, rfl, rfl, hpres⟩; exact ⟨hpres, rfl, rfl, rfl⟩

end Sys2Proof.Machine
end

