-- ==== Sys2Proof/Laws/Exec.lean ====
section
/-! SUPPORT. What each command can answer, once per command: it raised one of its errors, or it did its work, and then the
next state is named. Invariants and frames are read off these lemmas; no proof unfolds a meaning again. -/

namespace Sys2Proof.Machine

variable {s t : State}

theorem execReset_next (h : execReset s = .next t) :
    (t = s.raise .unsupportedConfiguration) ∨ (s.input = [] ∧ t = s.clear.succeed []) := by
  simp only [execReset, whenNoOperand_eq_next, Host.Outcome.next.injEq] at h
  obtain ⟨hi, rfl⟩ | ⟨-, rfl⟩ := h
  · exact .inr ⟨hi, rfl⟩
  · exact .inl rfl

theorem execCfg_next {alg mode pad : BitVec 4} (h : execCfg alg mode pad s = .next t) :
    (t = s.raise .unsupportedConfiguration) ∨
    (s.input = [] ∧ ∃ a m p, requestedConfig alg mode pad = some (a, m, p) ∧ t = (s.configure a m p).succeed []) := by
  simp only [execCfg, whenNoOperand_eq_next, Host.Outcome.next.injEq] at h
  obtain ⟨hi, h⟩ | ⟨-, rfl⟩ := h
  · cases hr : requestedConfig alg mode pad with
    | none => rw [hr] at h; exact .inl h.symm
    | some q => rw [hr] at h; exact .inr ⟨hi, _, _, _, rfl, h.symm⟩
  · exact .inl rfl

theorem execInit_next (h : execInit s = .next t) :
    (t = s.raise .uninitializedCipher) ∨ (t = s.raise .invalidKey) ∨
    (s.cfgd = true ∧ s.alg = some .mars ∧ marsKeyOk s.input = true ∧ t = (s.loadSubkeys (marsExpand s.input)).succeed []) ∨
    (∃ c x, s.cfgd = true ∧ s.alg = some (.external c) ∧ Config.ext c = some x ∧ x.keyOk s.input = true ∧
      t = (s.loadExternalKey (x.expand s.input)).succeed []) := by
  simp only [execInit, whenConfigured_eq_next] at h
  obtain ⟨hc, a, ha, h⟩ | ⟨-, rfl⟩ := h
  · cases a with
    | mars =>
      simp only [require_eq_next, Host.Outcome.next.injEq] at h
      obtain ⟨hk, rfl⟩ | ⟨-, rfl⟩ := h
      · exact .inr (.inr (.inl ⟨hc, ha, hk, rfl⟩))
      · exact .inr (.inl rfl)
    | external c =>
      simp only [withExternal_eq_next, require_eq_next, Host.Outcome.next.injEq] at h
      obtain ⟨x, hx, ⟨hk, rfl⟩ | ⟨-, rfl⟩⟩ := h
      · exact .inr (.inr (.inr ⟨c, x, hc, ha, hx, hk, rfl⟩))
      · exact .inr (.inl rfl)
  · exact .inl rfl

theorem execSetiv_next (h : execSetiv s = .next t) :
    (t = s.raise .uninitializedCipher) ∨ (t = s.raise .invalidBlockSize) ∨
    (∃ a bs, Configured s a bs ∧ s.input.length = bs ∧ t = (s.loadIv s.input).succeed []) := by
  simp only [execSetiv, whenConfigured_eq_next, withBlockSize_eq_next, require_eq_next, Host.Outcome.next.injEq,
    beq_iff_eq] at h
  obtain ⟨hc, a, ha, bs, hbs, ⟨hl, rfl⟩ | ⟨-, rfl⟩⟩ | ⟨-, rfl⟩ := h
  · exact .inr (.inr ⟨a, bs, ⟨hc, ha, hbs⟩, hl, rfl⟩)
  · exact .inr (.inl rfl)
  · exact .inl rfl

theorem execGeniv_next {n : BitVec 12} (h : execGeniv n s = .next t) :
    (t = s.raise .unsupportedConfiguration) ∨
    (s.input = [] ∧ t = (s.advanceDraws n.toNat).succeed (s.drawn n.toNat)) := by
  simp only [execGeniv, whenNoOperand_eq_next, Host.Outcome.next.injEq] at h
  obtain ⟨hi, rfl⟩ | ⟨-, rfl⟩ := h
  · exact .inr ⟨hi, rfl⟩
  · exact .inl rfl

theorem execBlksz_next (h : execBlksz s = .next t) :
    (t = s.raise .unsupportedConfiguration) ∨ (t = s.raise .uninitializedCipher) ∨
    (∃ a bs, Configured s a bs ∧ t = s.succeed [BitVec.ofNat 8 bs]) := by
  simp only [execBlksz, whenNoOperand_eq_next, whenConfigured_eq_next, withBlockSize_eq_next,
    Host.Outcome.next.injEq] at h
  obtain ⟨-, ⟨hc, a, ha, bs, hbs, rfl⟩ | ⟨-, rfl⟩⟩ | ⟨-, rfl⟩ := h
  · exact .inr (.inr ⟨a, bs, ⟨hc, ha, hbs⟩, rfl⟩)
  · exact .inr (.inl rfl)
  · exact .inl rfl

theorem execRdkey_next (h : execRdkey s = .next t) :
    (t = s.raise .unsupportedConfiguration) ∨ (t = s.raise .uninitializedCipher) ∨
    (∃ K, s.cfgd = true ∧ s.alg = some .mars ∧ s.inited = true ∧ s.k = some K ∧ t = s.succeed (subkeyBytes K)) := by
  simp only [execRdkey, whenNoOperand_eq_next, whenConfigured_eq_next, require_eq_next, whenInited_eq_next,
    withSubkeys_eq_next, Host.Outcome.next.injEq, beq_iff_eq] at h
  obtain ⟨-, ⟨hc, a, ha, ⟨rfl, ⟨hn, K, hK, rfl⟩ | ⟨-, rfl⟩⟩ | ⟨-, rfl⟩⟩ | ⟨-, rfl⟩⟩ | ⟨-, rfl⟩ := h
  · exact .inr (.inr ⟨K, hc, ha, hn, hK, rfl⟩)
  · exact .inr (.inl rfl)
  · exact .inl rfl
  · exact .inr (.inl rfl)
  · exact .inl rfl

/-- A read of the cipher goes on exactly with the block functions `keyedCipher` names. -/
theorem withCipher_keyed {a : Alg} {f : BlockCipher → Result} :
    withCipher s a f = .next t ↔ ∃ cipher, keyedCipher s a = some cipher ∧ f cipher = .next t := by
  cases a with
  | mars =>
    cases hk : s.k <;> simp [withCipher_eq_next, keyedCipher, hk]
  | external c =>
    cases hx : Config.ext c <;> cases hk : s.xk <;> simp [withCipher_eq_next, keyedCipher, hx, hk]

theorem blockCommand_next {f : BlockCipher → Bytes → Bytes} (h : blockCommand f s = .next t) :
    (t = s.raise .uninitializedCipher) ∨ (t = s.raise .invalidBlockSize) ∨
    (∃ a bs cipher, Keyed s a bs cipher ∧ s.input.length = bs ∧ t = s.succeed (f cipher s.input)) := by
  simp only [blockCommand, whenConfigured_eq_next, withBlockSize_eq_next, require_eq_next, whenInited_eq_next,
    withCipher_keyed, Host.Outcome.next.injEq, beq_iff_eq] at h
  obtain ⟨hc, a, ha, bs, hbs, ⟨hl, ⟨hn, cipher, hk, rfl⟩ | ⟨-, rfl⟩⟩ | ⟨-, rfl⟩⟩ | ⟨-, rfl⟩ := h
  · exact .inr (.inr ⟨a, bs, cipher, ⟨⟨hc, ha, hbs⟩, hn, hk⟩, hl, rfl⟩)
  · exact .inl rfl
  · exact .inr (.inl rfl)
  · exact .inl rfl

theorem execEncb_next (h : execEncb s = .next t) :
    (t = s.raise .uninitializedCipher) ∨ (t = s.raise .invalidBlockSize) ∨
    (∃ a bs cipher, Keyed s a bs cipher ∧ s.input.length = bs ∧ t = s.succeed (cipher.enc s.input)) :=
  blockCommand_next h

theorem execDecb_next (h : execDecb s = .next t) :
    (t = s.raise .uninitializedCipher) ∨ (t = s.raise .invalidBlockSize) ∨
    (∃ a bs cipher, Keyed s a bs cipher ∧ s.input.length = bs ∧ t = s.succeed (cipher.dec s.input)) :=
  blockCommand_next h

theorem execEncm_next (h : execEncm s = .next t) :
    (t = s.raise .uninitializedCipher) ∨
    (∃ a bs cipher m p v, MessageReady s a bs cipher m p v ∧
      t = (s.advanceDraws (padDraws p (padLength bs s.input.length))).succeed
        (encryptMessage m p bs cipher v (s.drawn (padDraws p (padLength bs s.input.length))) s.input)) := by
  simp only [execEncm, whenConfigured_eq_next, withBlockSize_eq_next, whenInited_eq_next, withMode_eq_next,
    whenIvReady_eq_next, withCipher_keyed, withPadding_eq_next, Host.Outcome.next.injEq] at h
  obtain ⟨hc, a, ha, bs, hbs, ⟨hn, m, hm, ⟨rfl, cipher, hk, p, hp, rfl⟩ |
    ⟨hne, hiv, v, hv, cipher, hk, p, hp, rfl⟩ | ⟨-, -, rfl⟩⟩ | ⟨-, rfl⟩⟩ | ⟨-, rfl⟩ := h
  · exact .inr ⟨a, bs, cipher, .ecb, p, [], ⟨⟨⟨hc, ha, hbs⟩, hn, hk⟩, hm, hp, fun h => absurd rfl h, fun _ => rfl⟩, rfl⟩
  · exact .inr ⟨a, bs, cipher, m, p, v, ⟨⟨⟨hc, ha, hbs⟩, hn, hk⟩, hm, hp, fun _ => ⟨hiv, hv⟩, fun h => absurd h hne⟩, rfl⟩
  · exact .inl rfl
  · exact .inl rfl
  · exact .inl rfl

theorem execDecm_next (h : execDecm s = .next t) :
    (t = s.raise .uninitializedCipher) ∨ (t = s.raise .invalidBlockSize) ∨ (t = s.raise .padding) ∨
    (∃ a bs cipher m p v msg, MessageReady s a bs cipher m p v ∧ s.input.length % bs = 0 ∧
      decryptMessage m p bs cipher v s.input = some msg ∧ t = s.succeed msg) := by
  simp only [execDecm, whenConfigured_eq_next, withBlockSize_eq_next, require_eq_next, whenInited_eq_next,
    withMode_eq_next, whenIvReady_eq_next, withCipher_keyed, withPadding_eq_next, beq_iff_eq] at h
  obtain ⟨hc, a, ha, bs, hbs, ⟨hl, ⟨hn, m, hm, ⟨rfl, cipher, hk, p, hp, h⟩ |
    ⟨hne, hiv, v, hv, cipher, hk, p, hp, h⟩ | ⟨-, -, rfl⟩⟩ | ⟨-, rfl⟩⟩ | ⟨-, rfl⟩⟩ | ⟨-, rfl⟩ := h
  · have ready : MessageReady s a bs cipher .ecb p [] :=
      ⟨⟨⟨hc, ha, hbs⟩, hn, hk⟩, hm, hp, fun h => absurd rfl h, fun _ => rfl⟩
    cases hd : decryptMessage .ecb p bs cipher [] s.input with
    | none => rw [hd] at h; cases h; exact .inr (.inr (.inl rfl))
    | some msg => rw [hd] at h; cases h; exact .inr (.inr (.inr ⟨a, bs, cipher, .ecb, p, [], msg, ready, hl, hd, rfl⟩))
  · have ready : MessageReady s a bs cipher m p v :=
      ⟨⟨⟨hc, ha, hbs⟩, hn, hk⟩, hm, hp, fun _ => ⟨hiv, hv⟩, fun h => absurd h hne⟩
    cases hd : decryptMessage m p bs cipher v s.input with
    | none => rw [hd] at h; cases h; exact .inr (.inr (.inl rfl))
    | some msg => rw [hd] at h; cases h; exact .inr (.inr (.inr ⟨a, bs, cipher, m, p, v, msg, ready, hl, hd, rfl⟩))
  · exact .inl rfl
  · exact .inl rfl
  · exact .inr (.inl rfl)
  · exact .inl rfl

/-! The guards in a state that meets what they ask for: a proof that a command completes rewrites with these. -/

theorem whenNoOperand_of {r : Result} (h : s.input = []) : whenNoOperand s r = r := by simp [whenNoOperand, h]

theorem whenConfigured_of {a : Alg} {f : Alg → Result} (hc : s.cfgd = true) (ha : s.alg = some a) :
    whenConfigured s f = f a := by
  simp [whenConfigured, withAlg, hc, ha]

theorem withExternal_of {c : ExternalCipher} {x : ExtCipher} {f : ExtCipher → Result} (h : Config.ext c = some x) :
    withExternal c f = f x := by
  simp [withExternal, h]

theorem withBlockSize_of {a : Alg} {bs : Nat} {f : Nat → Result} (h : algBlockSize a = some bs) :
    withBlockSize a f = f bs := by
  cases a with
  | mars => simp only [algBlockSize, Option.some.injEq] at h; subst h; rfl
  | external c =>
    simp only [algBlockSize, Option.map_eq_some_iff] at h
    obtain ⟨x, hx, rfl⟩ := h
    exact withExternal_of hx

theorem whenInited_of {r : Result} (h : s.inited = true) : whenInited s r = r := by simp [whenInited, h]

theorem withMode_of {m : Mode} {f : Mode → Result} (h : s.mode = some m) : withMode s f = f m := by simp [withMode, h]

theorem withPadding_of {p : Padding} {f : Padding → Result} (h : s.pad = some p) : withPadding s f = f p := by
  simp [withPadding, h]

theorem withSubkeys_of {K : Subkeys} {f : Subkeys → Result} (h : s.k = some K) : withSubkeys s f = f K := by
  simp [withSubkeys, h]

theorem withCipher_of {a : Alg} {cipher : BlockCipher} {f : BlockCipher → Result} (h : keyedCipher s a = some cipher) :
    withCipher s a f = f cipher := by
  cases a with
  | mars =>
    simp only [keyedCipher, Option.map_eq_some_iff] at h
    obtain ⟨K, hK, rfl⟩ := h
    simp [withCipher, withSubkeys, hK]
  | external c =>
    simp only [keyedCipher] at h
    split at h
    · rename_i hx hk
      cases h
      simp [withCipher, withExternal, withExternalKey, hx, hk]
    · cases h

theorem whenIvReady_of {a : Alg} {bs : Nat} {cipher : BlockCipher} {m : Mode} {p : Padding} {v : Bytes}
    {f : Bytes → Result} (h : MessageReady s a bs cipher m p v) : whenIvReady s m f = f v := by
  obtain ⟨-, -, -, hiv, hno⟩ := h
  cases m with
  | ecb => rw [hno rfl]; rfl
  | cbc | pcbc | cfb | ofb | ctr =>
    obtain ⟨h1, h2⟩ := hiv (by simp)
    simp [whenIvReady, withIv, h1, h2]

end Sys2Proof.Machine
end

