-- ==== Sys2Proof/Laws/Step.lean ====
section
/-! SUPPORT. What a step can do, once: it waits, it refuses a word, or it runs a command; and what any command leaves behind,
whichever it is. -/

namespace Sys2Proof.Machine

variable {s t : State} {c : Command} {rest : List Command} {i : Instr}

theorem sameRegisters_raise (s : State) (e : Error) : SameRegisters s (s.raise e) :=
  ⟨rfl, rfl, rfl, rfl, rfl, rfl, rfl, rfl, rfl⟩

theorem sameRegisters_succeed (s : State) (out : Bytes) : SameRegisters s (s.succeed out) :=
  ⟨rfl, rfl, rfl, rfl, rfl, rfl, rfl, rfl, rfl⟩

theorem sameRegisters_accept (s : State) (c : Command) (rest : List Command) : SameRegisters s (s.accept c rest) :=
  ⟨rfl, rfl, rfl, rfl, rfl, rfl, rfl, rfl, rfl⟩

theorem sameRegisters_advanceDraws (s : State) (n : Nat) : SameRegisters s (s.advanceDraws n) :=
  ⟨rfl, rfl, rfl, rfl, rfl, rfl, rfl, rfl, rfl⟩

/-- `raise e` answers the code of `e` and nothing else (R306). -/
theorem answers_raise (s : State) (e : Error) : Answers s (s.raise e) e.code [] := ⟨sameRegisters_raise s e, rfl, rfl, rfl, rfl⟩

theorem step_nil (h : s.commands = []) : step s = .next s := by simp only [step, h]

theorem step_undecodable {e : DecodeError} (h : s.commands = c :: rest) (hd : decodeWord c.word = .error e) :
    step s = .next ((s.accept c rest).raise .unsupportedConfiguration) := by
  simp only [step, h, hd]

theorem step_decoded (h : s.commands = c :: rest) (hd : decodeWord c.word = .ok i) :
    step s = exec i (s.accept c rest) := by
  simp only [step, h, hd]

/-- No command looks at the response before it. -/
theorem exec_response_irrelevant (i : Instr) (s : State) (r : Option Response) :
    exec i { s with response := r } = exec i s := by
  cases i <;> rfl

theorem code_ne_okCode (e : Error) : e.code ≠ okCode := by cases e <;> decide

/-- Whatever command runs, either it raised one of its errors, or it answered OK. -/
theorem exec_next (h : exec i s = .next t) :
    (∃ e ∈ canRaise i, t = s.raise e) ∨
      (∃ out, t.response = some ⟨okCode, out⟩ ∧ t.input = [] ∧ t.commands = s.commands) := by
  cases i with
  | reset =>
    rcases execReset_next h with rfl | ⟨-, rfl⟩
    exacts [.inl ⟨_, by simp [canRaise], rfl⟩, .inr ⟨_, rfl, rfl, rfl⟩]
  | cfg =>
    rcases execCfg_next h with rfl | ⟨-, _, _, _, -, rfl⟩
    exacts [.inl ⟨_, by simp [canRaise], rfl⟩, .inr ⟨_, rfl, rfl, rfl⟩]
  | init =>
    rcases execInit_next h with rfl | rfl | ⟨-, -, -, rfl⟩ | ⟨_, _, -, -, -, -, rfl⟩
    exacts [.inl ⟨_, by simp [canRaise], rfl⟩, .inl ⟨_, by simp [canRaise], rfl⟩, .inr ⟨_, rfl, rfl, rfl⟩,
      .inr ⟨_, rfl, rfl, rfl⟩]
  | setiv =>
    rcases execSetiv_next h with rfl | rfl | ⟨_, _, -, -, rfl⟩
    exacts [.inl ⟨_, by simp [canRaise], rfl⟩, .inl ⟨_, by simp [canRaise], rfl⟩, .inr ⟨_, rfl, rfl, rfl⟩]
  | geniv =>
    rcases execGeniv_next h with rfl | ⟨-, rfl⟩
    exacts [.inl ⟨_, by simp [canRaise], rfl⟩, .inr ⟨_, rfl, rfl, rfl⟩]
  | blksz =>
    rcases execBlksz_next h with rfl | rfl | ⟨_, _, -, rfl⟩
    exacts [.inl ⟨_, by simp [canRaise], rfl⟩, .inl ⟨_, by simp [canRaise], rfl⟩, .inr ⟨_, rfl, rfl, rfl⟩]
  | rdkey =>
    rcases execRdkey_next h with rfl | rfl | ⟨_, -, -, -, -, rfl⟩
    exacts [.inl ⟨_, by simp [canRaise], rfl⟩, .inl ⟨_, by simp [canRaise], rfl⟩, .inr ⟨_, rfl, rfl, rfl⟩]
  | encb =>
    rcases execEncb_next h with rfl | rfl | ⟨_, _, _, -, -, rfl⟩
    exacts [.inl ⟨_, by simp [canRaise], rfl⟩, .inl ⟨_, by simp [canRaise], rfl⟩, .inr ⟨_, rfl, rfl, rfl⟩]
  | decb =>
    rcases execDecb_next h with rfl | rfl | ⟨_, _, _, -, -, rfl⟩
    exacts [.inl ⟨_, by simp [canRaise], rfl⟩, .inl ⟨_, by simp [canRaise], rfl⟩, .inr ⟨_, rfl, rfl, rfl⟩]
  | encm =>
    rcases execEncm_next h with rfl | ⟨_, _, _, _, _, _, -, rfl⟩
    exacts [.inl ⟨_, by simp [canRaise], rfl⟩, .inr ⟨_, rfl, rfl, rfl⟩]
  | decm =>
    rcases execDecm_next h with rfl | rfl | rfl | ⟨_, _, _, _, _, _, _, -, -, -, rfl⟩
    exacts [.inl ⟨_, by simp [canRaise], rfl⟩, .inl ⟨_, by simp [canRaise], rfl⟩, .inl ⟨_, by simp [canRaise], rfl⟩,
      .inr ⟨_, rfl, rfl, rfl⟩]

/-- Whatever command a step takes, it raised an error on the accepted state, or it answered OK; and the command is gone. -/
theorem step_next (h : s.commands = c :: rest) (ht : step s = .next t) :
    (∃ e, t = (s.accept c rest).raise e) ∨
      (∃ out, t.response = some ⟨okCode, out⟩ ∧ t.input = [] ∧ t.commands = rest) := by
  cases hd : decodeWord c.word with
  | error e => rw [step_undecodable h hd] at ht; cases ht; exact .inl ⟨_, rfl⟩
  | ok i =>
    rw [step_decoded h hd] at ht
    rcases exec_next ht with ⟨e, -, rfl⟩ | ⟨out, h1, h2, h3⟩
    exacts [.inl ⟨e, rfl⟩, .inr ⟨out, h1, h2, h3⟩]

end Sys2Proof.Machine
end

