-- ==== Sys2Proof/Laws/Coherent.lean ====
section
/-! SUPPORT. Coherence reads the registers and the last response only, so whatever keeps the registers and answers a legal
response keeps it. -/

namespace Sys2Proof.Machine

variable {s t : State}

theorem coherent_of_sameRegisters (hs : Coherent s) (h : SameRegisters s t)
    (hr : ∀ r, t.response = some r → ResponseLegal r) : Coherent t := by
  obtain ⟨h1, h2, h3, h4, h5, h6, h7, h8, h9⟩ := h
  obtain ⟨⟨c1, c2, c3, c4⟩, ⟨k1, k2, k3, k4, k5⟩, ⟨i1, i2, i3⟩, -⟩ := hs
  exact ⟨⟨by rw [h4, h1, c1], by rw [h5, h1, c2], by rw [h6, h1, c3], by rwa [h4]⟩,
    ⟨by rwa [h2, h1], by rw [h7, h2, h4, k2], by rw [h8, h2, h4, k3], by rwa [h7], by rwa [h8, h4]⟩,
    ⟨by rwa [h3, h1], by rw [h9, h3, i2], by rwa [h9, h4]⟩, hr⟩

theorem coherent_raise (hs : Coherent s) (e : Error) : Coherent (s.raise e) :=
  coherent_of_sameRegisters hs (sameRegisters_raise s e) (by rintro r h; cases h; exact .inr ⟨e, rfl, rfl⟩)

theorem coherent_succeed (hs : Coherent s) (out : Bytes) : Coherent (s.succeed out) :=
  coherent_of_sameRegisters hs (sameRegisters_succeed s out) (by rintro r h; cases h; exact .inl rfl)

theorem coherent_accept (hs : Coherent s) (c : Command) (rest : List Command) : Coherent (s.accept c rest) :=
  coherent_of_sameRegisters hs (sameRegisters_accept s c rest) hs.response

theorem coherent_advanceDraws (hs : Coherent s) (n : Nat) : Coherent (s.advanceDraws n) :=
  coherent_of_sameRegisters hs (sameRegisters_advanceDraws s n) hs.response

/-! What the flags of a coherent state promise: the guards of a command then go on. -/

theorem Coherent.configured (hs : Coherent s) (h : s.cfgd = true) :
    ∃ a m p bs, s.alg = some a ∧ s.mode = some m ∧ s.pad = some p ∧ algBlockSize a = some bs := by
  obtain ⟨⟨c1, c2, c3, c4⟩, -⟩ := hs
  rw [h] at c1 c2 c3
  obtain ⟨a, ha⟩ := Option.isSome_iff_exists.1 c1
  obtain ⟨m, hm⟩ := Option.isSome_iff_exists.1 c2
  obtain ⟨p, hp⟩ := Option.isSome_iff_exists.1 c3
  have present := c4 a ha
  cases a with
  | mars => exact ⟨.mars, m, p, 16, ha, hm, hp, rfl⟩
  | external c =>
    obtain ⟨x, hx⟩ := Option.isSome_iff_exists.1 (show (Config.ext c).isSome = true from present)
    exact ⟨.external c, m, p, x.bs, ha, hm, hp, by simp [algBlockSize, hx]⟩

theorem Coherent.keyed (hs : Coherent s) (h : s.inited = true) {a : Alg} (ha : s.alg = some a) :
    ∃ cipher, keyedCipher s a = some cipher := by
  obtain ⟨⟨-, -, -, c4⟩, ⟨-, k2, k3, -, -⟩, -⟩ := hs
  have present := c4 a ha
  cases a with
  | mars =>
    rw [h, ha] at k2
    obtain ⟨K, hK⟩ := Option.isSome_iff_exists.1 (k2.trans rfl)
    exact ⟨marsCipher K, by simp only [keyedCipher, hK, Option.map_some]⟩
  | external c =>
    rw [h, ha] at k3
    obtain ⟨x, hx⟩ := Option.isSome_iff_exists.1 (show (Config.ext c).isSome = true from present)
    obtain ⟨xk, hK⟩ := Option.isSome_iff_exists.1 (k3.trans rfl)
    exact ⟨externalCipher x xk, by simp only [keyedCipher, hK, hx]⟩

theorem Coherent.loadedIv (hs : Coherent s) (h : s.ivv = true) : ∃ v, s.iv = some v :=
  Option.isSome_iff_exists.1 (hs.iv.iv_iff.trans h)

end Sys2Proof.Machine
end

