-- ==== Sys2Proof/Laws/Factory.lean ====
section
/-! SUPPORT. What a name lookup can answer, and how a sequence of commands runs: proofs about names and software calls cite these
and never unfold a lookup or a run (30_encoding R84 to R88). -/

namespace Sys2Proof.Machine

variable {table : List (NameText × BitVec 4)} {name : NameText} {code : BitVec 4} {e : Error} {c : Command} {cs : List Command}
  {s t : State} {out : Bytes}

/-- In a table without repeated names, a name has the one value that stands beside it. -/
theorem lookup_eq_some_iff (h : (table.map Prod.fst).Nodup) : table.lookup name = some code ↔ (name, code) ∈ table := by
  induction table with
  | nil => simp
  | cons row rest ih =>
    obtain ⟨key, value⟩ := row
    simp only [List.map_cons, List.nodup_cons] at h
    by_cases hk : name = key
    · subst hk
      have : ∀ v, (name, v) ∉ rest := fun v hv => h.1 (List.mem_map.2 ⟨_, hv, rfl⟩)
      simp [this, eq_comm]
    · have hb : (name == key) = false := beq_eq_false_iff_ne.2 hk
      simp [List.lookup_cons, hb, hk, ih h.2]

theorem lookupName_eq_ok_iff (h : (table.map Prod.fst).Nodup) :
    lookupName table name = .ok code ↔ (name.map upperAscii, code) ∈ table := by
  rw [← lookup_eq_some_iff h, lookupName]
  cases table.lookup (name.map upperAscii) <;> simp

theorem lookupName_error (h : lookupName table name = .error e) : e = .unsupportedConfiguration := by
  unfold lookupName at h
  split at h <;> cases h
  rfl

@[simp] theorem runCommands_nil (s : State) : runCommands [] s = .next s := rfl

theorem runCommands_cons (h : step (s.issueFirst c) = .next t) (ho : t.result = some out) :
    runCommands (c :: cs) s = runCommands cs t := by
  simp only [runCommands, h, ho]

theorem runCommands_error (h : step (s.issueFirst c) = .next t) (ho : t.result = none) :
    runCommands (c :: cs) s = .next t := by
  simp only [runCommands, h, ho]

theorem runCall_eq {call : SoftwareCall} (hc : softwareCommands call = .ok cs) (h : runCommands cs s = .next t)
    (ho : t.result = some out) : runCall call s = .ok (runCommands (followingCommands call out) t) := by
  simp only [runCall, hc, h, ho]

@[simp] theorem result_succeed (s : State) (out : Bytes) : (s.succeed out).result = some out := rfl

@[simp] theorem result_raise (s : State) (e : Error) : (s.raise e).result = none := by cases e <;> rfl

end Sys2Proof.Machine
end

