-- ==== Sys2Proof/Laws/KeySchedule.lean ====
section
/-! SUPPORT. The key schedule only appends: what one pass and all passes leave of the words before them, and the word each
position appends (42_mars_key_schedule R150 to R158). -/

namespace Sys2Proof.Machine

theorem keyWords_length (key : Bytes) : (keyWords key).length = key.length / 4 := by simp [keyWords]

/-- A pass of `n` positions appends `n` words. -/
theorem schedulePass_append (j : Nat) : ∀ n i K, ∃ T, schedulePass j n i K = K ++ T ∧ T.length = n
  | 0, _, _ => ⟨[], by simp [schedulePass], rfl⟩
  | n + 1, i, K => by
    obtain ⟨T, h1, h2⟩ := schedulePass_append j n (i + 1) (K ++ [scheduleWord K i j])
    exact ⟨scheduleWord K i j :: T, by rw [schedulePass, h1]; simp, by simp [h2]⟩

/-- The word at position `i + q` of a pass is steps 1 to 5 over the words before it. -/
theorem schedulePass_word (j : Nat) : ∀ n i K q, q < n →
    (schedulePass j n i K).getD (K.length + q) 0 =
      scheduleWord ((schedulePass j n i K).take (K.length + q)) (i + q) j
  | 0, _, _, _, h => absurd h (Nat.not_lt_zero _)
  | n + 1, i, K, 0, _ => by
    obtain ⟨T, h1, -⟩ := schedulePass_append j n (i + 1) (K ++ [scheduleWord K i j])
    rw [schedulePass, h1]; simp
  | n + 1, i, K, q + 1, h => by
    have ih := schedulePass_word j n (i + 1) (K ++ [scheduleWord K i j]) q (by omega)
    simp only [List.length_append, List.length_singleton] at ih
    rw [schedulePass, show K.length + (q + 1) = K.length + 1 + q by omega, ih]; congr 1; omega

/-- The passes keep every word written before them. -/
theorem schedulePasses_prefix : ∀ fuel j K, K <+: schedulePasses fuel j K
  | 0, _, _ => List.prefix_rfl
  | fuel + 1, j, K => by
    rw [schedulePasses]
    split
    · obtain ⟨T, h, -⟩ := schedulePass_append j (min K.length (40 - K.length)) 0 K
      exact (h ▸ List.prefix_append K T).trans (schedulePasses_prefix fuel (j + 1) _)
    · exact List.prefix_rfl

end Sys2Proof.Machine
end

