-- ==== Sys2Proof/Laws/Modes.lean ====
section
/-! SUPPORT. Every mode answers one block for each block it is given, whatever the block functions are. -/

namespace Sys2Proof.Machine

variable (E : Bytes → Bytes)

theorem cbcEncrypt_length : ∀ (xs : List Bytes) c, (cbcEncrypt E c xs).length = xs.length
  | [], _ => rfl
  | _ :: xs, _ => by simp [cbcEncrypt, cbcEncrypt_length xs]

theorem cbcDecrypt_length : ∀ (xs : List Bytes) c, (cbcDecrypt E c xs).length = xs.length
  | [], _ => rfl
  | _ :: xs, _ => by simp [cbcDecrypt, cbcDecrypt_length xs]

theorem pcbcEncrypt_length : ∀ (xs : List Bytes) c p, (pcbcEncrypt E c p xs).length = xs.length
  | [], _, _ => rfl
  | _ :: xs, _, _ => by simp [pcbcEncrypt, pcbcEncrypt_length xs]

theorem pcbcDecrypt_length : ∀ (xs : List Bytes) c p, (pcbcDecrypt E c p xs).length = xs.length
  | [], _, _ => rfl
  | _ :: xs, _, _ => by simp [pcbcDecrypt, pcbcDecrypt_length xs]

theorem cfbEncrypt_length : ∀ (xs : List Bytes) c, (cfbEncrypt E c xs).length = xs.length
  | [], _ => rfl
  | _ :: xs, _ => by simp [cfbEncrypt, cfbEncrypt_length xs]

theorem cfbDecrypt_length : ∀ (xs : List Bytes) c, (cfbDecrypt E c xs).length = xs.length
  | [], _ => rfl
  | _ :: xs, _ => by simp [cfbDecrypt, cfbDecrypt_length xs]

theorem ofbCrypt_length : ∀ (xs : List Bytes) c, (ofbCrypt E c xs).length = xs.length
  | [], _ => rfl
  | _ :: xs, _ => by simp [ofbCrypt, ofbCrypt_length xs]

theorem ctrCrypt_length (iv : Bytes) : ∀ (xs : List Bytes) j, (ctrCrypt E iv j xs).length = xs.length
  | [], _ => rfl
  | _ :: xs, _ => by simp [ctrCrypt, ctrCrypt_length iv xs]

end Sys2Proof.Machine
end

