-- ==== Sys2Proof/Laws/PerInstr.lean ====
section
/-! SUPPORT. One statement about every command as syntax: the word `encode` writes for it has the fixed bits that its row of
spec/opcode_table.json gives, and its operation code stands in bits 31 to 24 (30_encoding R71, R72, R78). -/

namespace Sys2Proof.Laws.Row

/-- The fixed bits of a command's row, as the table lists them: high bit, low bit, value. -/
def fixedBits : Instr → List (Nat × Nat × Nat)
  | .reset => [(31, 0, 0x00000000)]
  | .cfg _ _ _ => [(11, 0, 0), (31, 24, 1)]
  | .init => [(31, 0, 0x02000000)]
  | .setiv => [(31, 0, 0x03000000)]
  | .geniv _ => [(31, 12, 0x04000)]
  | .blksz => [(31, 0, 0x05000000)]
  | .rdkey => [(31, 0, 0x06000000)]
  | .encb => [(31, 0, 0x10000000)]
  | .decb => [(31, 0, 0x11000000)]
  | .encm => [(31, 0, 0x20000000)]
  | .decm => [(31, 0, 0x21000000)]

/-- The word of `i` has the fixed bits of its row, and its operation code. -/
def Statement (i : Instr) : Prop :=
  (∀ r ∈ fixedBits i, (encode i).toNat / 2 ^ r.2.1 % 2 ^ (r.1 + 1 - r.2.1) = r.2.2) ∧ opcField (encode i) = opcode i

theorem reset : Statement .reset := by unfold Statement; decide

theorem cfg (alg mode pad : BitVec 4) : Statement (.cfg alg mode pad) := by
  have := alg.isLt; have := mode.isLt; have := pad.isLt
  have hw := packWord_toNat 1 alg mode pad 0
  refine ⟨?_, (fields_packWord 1 alg mode pad 0).1⟩
  simp only [fixedBits, List.forall_mem_cons, encode, opcode, hw]
  refine ⟨?_, ?_, by simp⟩ <;> simp <;> omega

theorem init : Statement .init := by unfold Statement; decide

theorem setiv : Statement .setiv := by unfold Statement; decide

theorem geniv (n : BitVec 12) : Statement (.geniv n) := by
  have := n.isLt
  have hw := packWord_toNat 4 0 0 0 n
  refine ⟨?_, (fields_packWord 4 0 0 0 n).1⟩
  simp only [fixedBits, List.forall_mem_cons, encode, opcode, hw]
  refine ⟨?_, by simp⟩
  simp; omega

theorem blksz : Statement .blksz := by unfold Statement; decide

theorem rdkey : Statement .rdkey := by unfold Statement; decide

theorem encb : Statement .encb := by unfold Statement; decide

theorem decb : Statement .decb := by unfold Statement; decide

theorem encm : Statement .encm := by unfold Statement; decide

theorem decm : Statement .decm := by unfold Statement; decide

end Sys2Proof.Laws.Row
end

