-- ==== Sys2Proof/Tests/Slice0.lean ====
section
/-! SUPPORT. Small tests, and for each statement of Certificates/Slice0/Obligations.lean that has hypotheses a state and operands
that meet them. Expected values come from spec/95_test_vectors.md: V and P numbers name its vectors and programs. The S-box
and the 8-byte cipher are that file's test instances T1, T2 and T3; the engine's own S-box is opaque, so vectors with an S-box are
about the functions the commands call, with the S-box as their argument. -/

namespace Sys2Proof.Tests

open Sys2Proof.Machine

/-! ## Helpers -/

/-- T1, `SBOX_TEST`. -/
def sboxTest : SBox := fun i => 0x9e3779b9 * BitVec.ofNat 32 (i.toNat + 1)

/-- T2, `SB_ZERO`. -/
def sboxZero : SBox := fun _ => 0

/-- The bytes `first, first + 1, ..`, `n` of them. -/
def counting (first n : Nat) : Bytes := (List.range n).map fun k => BitVec.ofNat 8 (first + k)

/-- The key `00 01 .. 0f` of V20. -/
def testKey : Bytes := counting 0 16

/-- The IV `10 11 .. 1f` of section 8. -/
def testIv : Bytes := counting 16 16

/-- The array of V20. -/
def testKeys : Subkeys :=
  #v[0x00010203, 0x04050607, 0x08090a0b, 0x0c0d0e0f, 0x576e4989, 0xa7abae43, 0x6c4b8b55, 0x47d5a9a4,
    0xc81a3e2b, 0xd83b772a, 0x56b0b32c, 0x2f4f7681, 0x780ba801, 0x78245acb, 0x255ecdb2, 0x32502f1a,
    0x7427c182, 0x2598352b, 0xabaa5917, 0x589887b3, 0x0f61bcf8, 0x17d6cbef, 0xe16059e5, 0xb3e27d3f,
    0xa4dc8f43, 0x98f20cac, 0xba995c44, 0xeea462c2, 0x6b611428, 0x5c75bca3, 0xd3862f7f, 0xfa40015f,
    0x180a5e96, 0x6ce94cbd, 0x56b0b32c, 0x2f4f7681, 0x780ba801, 0x78245acb, 0x255ecdb2, 0x32502f1a]

/-- The block functions of MARS under V20 and `SBOX_TEST`. -/
def testCipher : BlockCipher := ⟨marsEncrypt testKeys sboxTest, marsDecrypt testKeys sboxTest⟩

/-- T3, `TOY8`, as block functions. -/
def toyEnc (b : Bytes) : Bytes := (List.range 8).map fun k => b.getD ((k + 1) % 8) 0 + 1

/-- The inverse of `toyEnc`. -/
def toyDec (c : Bytes) : Bytes := (List.range 8).map fun k => c.getD ((k + 7) % 8) 0 - 1

/-- Power-on reset with an operand in place. -/
def fresh (input : Bytes) : State := { State.reset with input := input }

/-- A MARS engine after CFG. -/
def configured (m : Mode) (p : Padding) (input : Bytes) : State :=
  { State.reset with cfgd := true, alg := some .mars, mode := some m, pad := some p, input := input }

/-- A MARS engine after CFG and INIT with `testKey`. -/
def keyed (m : Mode) (p : Padding) (input : Bytes) : State :=
  { configured m p input with inited := true, k := some testKeys }

/-- A MARS engine after CFG, INIT and SETIV. -/
def ready (m : Mode) (p : Padding) (input : Bytes) : State :=
  { keyed m p input with ivv := true, iv := some testIv }

/-- The engine of program P4 after CFG DES, for any record of DES. -/
def external (c : ExternalCipher) (input : Bytes) : State :=
  { State.reset with cfgd := true, alg := some (.external c), mode := some .ctr, pad := some .pkcs7, input := input }

/-- `s` with the one command `(w, input)` to take. -/
def issuing (s : State) (w : Word) (input : Bytes) : State := { s with commands := [⟨w, input⟩] }

/-- The state an outcome goes on with. -/
def after : Result → Option State
  | .next t => some t
  | .fault _ | .refused _ => none

/-- The response an outcome answers. -/
def answer (r : Result) : Option Response := (after r).bind State.response

/-! ## WellFormed -/

theorem test_wellFormed : (Instr.cfg 4 6 3).wellFormed = true ∧ (Instr.geniv 4095).wellFormed = true := by decide

theorem test_illFormed_alg : (Instr.cfg 5 0 0).wellFormed = false := by decide

theorem test_illFormed_mode : (Instr.cfg 0 7 0).wellFormed = false := by decide

theorem test_illFormed_pad : (Instr.cfg 0 0 4).wellFormed = false := by decide

/-! ## Decoding (V70, V71): the words are written out from 30_encoding R71 to R76 -/

theorem test_decode_control :
    decodeWord 0x00000000 = .ok .reset ∧ decodeWord 0x02000000 = .ok .init ∧ decodeWord 0x03000000 = .ok .setiv ∧
    decodeWord 0x05000000 = .ok .blksz ∧ decodeWord 0x06000000 = .ok .rdkey := by decide

theorem test_decode_cfg :
    decodeWord 0x01400000 = .ok (.cfg 4 0 0) ∧ decodeWord 0x01451000 = .ok (.cfg 4 5 1) ∧
    decodeWord 0x01443000 = .ok (.cfg 4 4 3) ∧ decodeWord 0x01050000 = .ok (.cfg 0 5 0) ∧
    decodeWord 0x01332000 = .ok (.cfg 3 3 2) ∧ decodeWord 0x01460000 = .ok (.cfg 4 6 0) := by decide

theorem test_decode_geniv : decodeWord 0x04000010 = .ok (.geniv 16) ∧ decodeWord 0x04000000 = .ok (.geniv 0) := by decide

theorem test_decode_block_and_message :
    decodeWord 0x10000000 = .ok .encb ∧ decodeWord 0x11000000 = .ok .decb ∧ decodeWord 0x20000000 = .ok .encm ∧
    decodeWord 0x21000000 = .ok .decm := by decide

theorem test_decode_refuses :
    decodeWord 0x07000000 = .error (.reservedOpc 0x07) ∧ decodeWord 0xff000000 = .error (.reservedOpc 0xff) ∧
    decodeWord 0x12000000 = .error (.reservedOpc 0x12) ∧ decodeWord 0x22000000 = .error (.reservedOpc 0x22) ∧
    decodeWord 0x00000001 = .error (.unusedBits 0x00) ∧ decodeWord 0x02400000 = .error (.unusedBits 0x02) ∧
    decodeWord 0x01400001 = .error (.unusedBits 0x01) ∧ decodeWord 0x04001000 = .error (.unusedBits 0x04) := by decide

theorem test_decodeTableWord :
    decodeTableWord 32 0x01410000 = some (.cfg 4 1 0) ∧ decodeTableWord 32 0x07000000 = none := by decide

theorem test_encode : encode (.cfg 4 5 1) = 0x01451000 ∧ encode (.geniv 16) = 0x04000010 ∧ encode .decm = 0x21000000 := by
  decide

/-! ## Word arithmetic (V1 to V17) -/

theorem test_word_arithmetic :
    (0xffffffff + 0x00000001 : Word) = 0 ∧ (0x00000005 - 0x00000007 : Word) = 0xfffffffe ∧
    (0x8acf0246 * 0x0fedcba9 : Word) = 0xfe440236 ∧ (0xffffffff * 0xffffffff : Word) = 1 := by decide

theorem test_rotations :
    rotl 0x80000001 1 = 0x00000003 ∧ rotr 0x80000001 1 = 0xc0000000 ∧ rotl 0x12345678 0 = 0x12345678 ∧
    rotl 0xdeadbeef 31 = 0xef56df77 ∧ rotr 0xdeadbeef 31 = 0xbd5b7ddf := by decide

theorem test_shift_and_order :
    shiftRight 0x12345678 5 = 0x0091a2b3 ∧ be32 0 1 2 3 = 0x00010203 ∧ le32 0 1 2 3 = 0x03020100 := by decide

/-! ## Key schedule (V20, V22, V23, V26) -/

theorem test_v20 : marsExpand testKey = testKeys := by decide

theorem test_v22 : (expandWords (rep 0 16)).take 8 =
    [0, 0, 0, 0, 0x9a69a9a6, 0xebd75eba, 0x9a69a9a6, 0x9a69a9a6] := by decide

theorem test_v23_20_bytes : (expandWords (counting 0 20)).drop 36 =
    [0x32e34a7a, 0x142fcf0b, 0xf5df0a89, 0x2e101a4b] := by decide

theorem test_v23_56_bytes : (expandWords (counting 0 56)).drop 36 =
    [0x6b9e5255, 0x00aecef7, 0x7690930c, 0x2d4d7483] := by decide

theorem test_v26 : (List.range 64).filter (fun n => marsKeyOk (rep 0 n)) = [16, 20, 24, 28, 32, 36, 40, 44, 48, 52, 56] := by
  decide

/-! ## The E-function, the rounds, one block (V30 to V43) -/

theorem test_v30_s0 : eFunction sboxTest 0x12345678 0x9abcdef0 0x0fedcba9 = ⟨0xd79b6325, 0x56789ab4, 0x1008dbf9⟩ := by
  decide

theorem test_v30_s1 : eFunction sboxTest 0xdeadbeef 0x000000ff 0x00000020 = ⟨0x9cf261cc, 0x6f56dff7, 0xfdea83ee⟩ := by
  decide

theorem test_v31_forward :
    fwdRound sboxTest 0 ⟨0x01234567, 0x89abcdef, 0xfedcba98, 0x76543210⟩ = ⟨0x49c7c05d, 0x3ea9d89c, 0x05bc9e62, 0x29020563⟩ ∧
    fwdRound sboxTest 5 ⟨0x01234567, 0x89abcdef, 0xfedcba98, 0x76543210⟩ = ⟨0x49c7c05d, 0x3ea9d89c, 0x05bc9e62, 0x6d0d275e⟩ := by
  decide

theorem test_v31_backward :
    bwdRound sboxTest 2 ⟨0x01234567, 0x89abcdef, 0xfedcba98, 0x76543210⟩ = ⟨0x13205d77, 0x16bda325, 0xed9210b4, 0x578acf13⟩ ∧
    bwdRound sboxTest 7 ⟨0x01234567, 0x89abcdef, 0xfedcba98, 0x76543210⟩ = ⟨0x76198c9e, 0xd4dbabe0, 0x3ed864e0, 0x78777777⟩ := by
  decide

theorem test_v32 :
    coreRound sboxTest testKeys 7 ⟨0x01234567, 0x89abcdef, 0xfedcba98, 0x76543210⟩ =
      ⟨0xe74ff7d2, 0xf98ff111, 0xb8808151, 0x68ace024⟩ ∧
    coreRound sboxTest testKeys 8 ⟨0x01234567, 0x89abcdef, 0xfedcba98, 0x76543210⟩ =
      ⟨0x6e9dbc4b, 0x9f289ca8, 0x9061a816, 0x68ace024⟩ := by decide

theorem test_v40 : marsEncrypt testKeys sboxTest (rep 0 16) = bytesOfNat 16 0xc9d0da9adb3f4ea7eebcd9374c254e59 := by
  decide +kernel

theorem test_v42 : marsEncrypt testKeys sboxTest (bytesOfNat 16 0x00112233445566778899aabbccddeeff) =
    bytesOfNat 16 0x2772a3443208c1ea762ad97426214ad3 := by decide +kernel

theorem test_v43 : marsDecrypt testKeys sboxTest (rep 0xff 16) = bytesOfNat 16 0x0b91e14f7a593b0587c950bd6f814790 := by
  decide +kernel

/-! ## Padding (V50 to V56) -/

theorem test_v50 : padMessage .pkcs7 16 [] [0xaa] = bytesOfNat 16 0xaa0f0f0f0f0f0f0f0f0f0f0f0f0f0f0f ∧
    padMessage .pkcs7 16 [] [] = rep 0x10 16 := by decide

theorem test_v51 : padMessage .ansiX923 16 [] [0xaa] = bytesOfNat 16 0xaa00000000000000000000000000000f ∧
    padMessage .ansiX923 16 [] (counting 1 15) = bytesOfNat 16 0x0102030405060708090a0b0c0d0e0f01 := by decide

theorem test_v52 : padMessage .iso10126 16 (counting 0xc0 14) [0xaa] = bytesOfNat 16 0xaac0c1c2c3c4c5c6c7c8c9cacbcccd0f ∧
    padDraws .iso10126 (padLength 16 15) = 0 := by decide

theorem test_v53 : padMessage .zeros 16 [] (counting 1 16) = counting 1 16 ++ rep 0 16 := by decide

theorem test_v55_pkcs7 :
    unpadMessage .pkcs7 16 (rep 0 16) = none ∧ unpadMessage .pkcs7 16 (bytesOfNat 16 0x11) = none ∧
    unpadMessage .pkcs7 16 (bytesOfNat 16 0x030203) = none ∧ unpadMessage .pkcs7 16 [] = none ∧
    unpadMessage .pkcs7 16 (rep 0x10 16) = some [] := by decide

theorem test_v55_ansiX923 :
    unpadMessage .ansiX923 16 (bytesOfNat 16 0x010003) = none ∧
    unpadMessage .ansiX923 16 (bytesOfNat 16 0x03) = some (rep 0 13) ∧
    unpadMessage .ansiX923 16 (0x01 :: bytesOfNat 15 0x10) = none := by decide

theorem test_v55_iso10126 :
    unpadMessage .iso10126 16 (bytesOfNat 16 0x556603) = some (rep 0 13) ∧ unpadMessage .iso10126 16 (rep 0 16) = none ∧
    unpadMessage .iso10126 16 (bytesOfNat 16 0x11) = none := by decide

theorem test_v55_zeros :
    unpadMessage .zeros 16 (rep 0 16) = some [] ∧ unpadMessage .zeros 16 (0x07 :: rep 0 31) = some [0x07] ∧
    unpadMessage .zeros 16 [] = some [] := by decide

theorem test_v56 : unpadMessage .zeros 16 (padMessage .zeros 16 [] [0xaa, 0x00]) = some [0xaa] := by decide

/-! ## Modes (V61, V67, V68, V69) -/

theorem test_v61 : encryptMessage .cbc .pkcs7 16 testCipher testIv [] (counting 0 20) =
    bytesOfNat 32 0x7d91b82ab285fd044d39640b9fcf42376d58a2b3653eb0072011fba6591ba4c5 := by decide +kernel

theorem test_v67_tampered : decryptMessage .cbc .pkcs7 16 testCipher testIv
      (bytesOfNat 32 0x7c91b82ab285fd044d39640b9fcf42376d58a2b3653eb0072011fba6591ba4c5) =
    some (bytesOfNat 20 0xe317b76dbe1b96ad8ae417d808f3166e11111213) := by decide +kernel

theorem test_v68 : ctrAdd (rep 0 15 ++ [0xff]) 1 = rep 0 14 ++ [0x01, 0x00] ∧ ctrAdd (rep 0xff 16) 1 = rep 0 16 := by
  decide

/-- The message, the IV and the cipher of V69. -/
def toyOut (m : Mode) : Bytes :=
  encryptMessage m .pkcs7 8 ⟨toyEnc, toyDec⟩ (bytesOfNat 8 0x00000000ffffffff) [] (counting 1 10)

theorem test_v69_chained :
    toyOut .ecb = bytesOfNat 16 0x03040506070809020b0707070707070a ∧ toyOut .cbc = bytesOfNat 16 0x030405fbfaf9f8020f04fefd00ff050b ∧
    toyOut .pcbc = bytesOfNat 16 0x030405fbfaf9f8020d01fafafafa0d0c := by decide

theorem test_v69_stream :
    toyOut .cfb = bytesOfNat 16 0x00030204050607090d090300010e0c07 ∧ toyOut .ofb = bytesOfNat 16 0x00030204050607090b08070707070404 ∧
    toyOut .ctr = bytesOfNat 16 0x0003020405060709080b040707070707 := by decide

theorem test_p5_decm : decryptMessage .ctr .pkcs7 8 ⟨toyEnc, toyDec⟩ (bytesOfNat 8 0x00000000ffffffff)
    (bytesOfNat 16 0x0003020405060709080b040707070707) = some (counting 1 10) := by decide

/-! ## Names and assembler lines (V70, V72) -/

theorem test_v72_algorithms :
    resolveAlg true ['M', 'a', 'r', 's'] = .ok 4 ∧ resolveAlg false ['m', 'a', 'r', 's'] = .error .unsupportedConfiguration ∧
    resolveAlg false ['r', 'i', 'j', 'n', 'd', 'a', 'e', 'l'] = .ok 3 ∧
    resolveAlg true ['A', 'E', 'S'] = .error .unsupportedConfiguration := by decide

theorem test_v72_modes_and_paddings :
    resolveMode [' ', 'C', 'B', 'C'] = .error .unsupportedConfiguration ∧ resolvePad ['p', 'k', 'c', 's', '7'] = .ok 0 ∧
    resolvePad ['P', 'K', 'C', 'S', '5'] = .error .unsupportedConfiguration := by decide

theorem test_v70_assembler :
    assembleLine true ['C', 'F', 'G'] [['M', 'A', 'R', 'S'], ['C', 'B', 'C'], ['P', 'K', 'C', 'S', '7']] = some ⟨0x01410000, []⟩ ∧
    assembleLine true ['G', 'E', 'N', 'I', 'V'] [['1', '6']] = some ⟨0x04000010, []⟩ ∧
    assembleLine true ['E', 'N', 'C', 'B'] [['0', '0', 'f', 'F']] = some ⟨0x10000000, [0x00, 0xff]⟩ := by decide

/-! ## Software calls (R88): the words are those of V70 -/

theorem test_r88_construct :
    softwareCommands (.construct .mars (.chained .cbc) .pkcs7 testKey testIv) =
      .ok [⟨0x01410000, []⟩, ⟨0x02000000, testKey⟩, ⟨0x03000000, testIv⟩] ∧
    softwareCommands (.constructEcbNoIv .mars .pkcs7 testKey) = .ok [⟨0x01400000, []⟩, ⟨0x02000000, testKey⟩] ∧
    (configOf .mars .randomDelta .pkcs7, configOf (.external .rijndael) (.chained .cfb) .iso10126) =
      (.cfg 4 6 0, .cfg 3 3 2) := by decide

theorem test_r88_construct_stops_at_error : ∃ t, runCall (.construct .mars .randomDelta .pkcs7 testKey testIv)
    (configured .cbc .pkcs7 []) = .ok (.next t) ∧ t.response = some ⟨0x04, []⟩ ∧ t.inited = false := ⟨_, rfl, rfl, rfl⟩

/-- The helper alone loads no IV; asked to, it loads the bytes it returned. -/
theorem test_r88_generateIv :
    (∃ t, runCall (.generateIv 16 false) (configured .cbc .pkcs7 []) = .ok (.next t) ∧ t.ivv = false) ∧
    followingCommands (.generateIv 16 true) testIv = [⟨0x03000000, testIv⟩] := ⟨⟨_, rfl, rfl⟩, by decide⟩

/-! ## One step of each command (V47, P1 to P4) -/

theorem test_reset_with_operand : answer (exec .reset (ready .cbc .pkcs7 [0])) = some ⟨0x04, []⟩ := by decide

theorem test_reset_clears : (after (exec .reset (ready .cbc .pkcs7 []))).map (fun t => (t.cfgd, t.inited, t.ivv, t.k.isSome, t.iv.isSome)) =
    some (false, false, false, false, false) := by decide

theorem test_cfg_discards_key : (after (exec (.cfg 4 1 0) (ready .cbc .pkcs7 []))).map (fun t => (t.cfgd, t.inited, t.k, t.mode)) =
    some (true, false, none, some .cbc) := by decide

theorem test_cfg_randomDelta_keeps_key :
    (after (exec (.cfg 4 6 0) (ready .cbc .pkcs7 []))).map (fun t => (t.response, t.inited, t.mode)) =
      some (some ⟨0x04, []⟩, true, some .cbc) := by decide

theorem test_init_loads_v20 : (after (exec .init (configured .cbc .pkcs7 testKey))).map (fun t => (t.inited, t.k)) =
    some (true, some testKeys) := by decide

theorem test_init_failed_keeps_key : (after (exec .init (keyed .ctr .pkcs7 (rep 0 12)))).map (fun t => (t.response, t.k)) =
    some (some ⟨0x01, []⟩, some testKeys) := by decide

theorem test_setiv_before_init : (after (exec .setiv (configured .ecb .pkcs7 testIv))).map (fun t => (t.ivv, t.iv)) =
    some (true, some testIv) := by decide

theorem test_setiv_wrong_length : answer (exec .setiv (keyed .ctr .pkcs7 (rep 0 15))) = some ⟨0x02, []⟩ := by decide

theorem test_geniv_unconfigured : exec (.geniv 2) (fresh []) = .next { fresh [] with
    draws := 2, response := some ⟨0x00, [Config.rng 0, Config.rng 1]⟩ } := rfl

theorem test_geniv_with_operand : answer (exec (.geniv 0) (fresh [0])) = some ⟨0x04, []⟩ := by decide

theorem test_blksz : answer (exec .blksz (configured .ecb .pkcs7 [])) = some ⟨0x00, [0x10]⟩ := by decide

theorem test_blksz_unconfigured : answer (exec .blksz (fresh [])) = some ⟨0x03, []⟩ := by decide

theorem test_rdkey_v20 : (answer (exec .rdkey (keyed .ecb .pkcs7 []))).map (fun r => (r.st, r.out.take 20, r.out.length)) =
    some (0x00, bytesOfNat 20 0x000102030405060708090a0b0c0d0e0f576e4989, 160) := by decide +kernel

theorem test_rdkey_other_cipher : answer (exec .rdkey (external .des [])) = some ⟨0x04, []⟩ := by decide

theorem test_encb_length_before_key : answer (exec .encb (configured .ecb .pkcs7 (rep 0 15))) = some ⟨0x02, []⟩ ∧
    answer (exec .encb (configured .ecb .pkcs7 (rep 0 16))) = some ⟨0x03, []⟩ := by decide

theorem test_encb : exec .encb (keyed .ecb .pkcs7 (rep 0 16)) = .next { keyed .ecb .pkcs7 [] with
    response := some ⟨0x00, marsEncrypt testKeys Config.sbox (rep 0 16)⟩ } := rfl

theorem test_decb_unconfigured : answer (exec .decb (fresh (rep 0 15))) = some ⟨0x03, []⟩ := by decide

theorem test_decb : exec .decb (keyed .ecb .pkcs7 (rep 0 16)) = .next { keyed .ecb .pkcs7 [] with
    response := some ⟨0x00, marsDecrypt testKeys Config.sbox (rep 0 16)⟩ } := rfl

theorem test_encm_without_iv : answer (exec .encm (keyed .ctr .ansiX923 [0x68])) = some ⟨0x03, []⟩ := by decide

theorem test_encm : exec .encm (ready .cbc .pkcs7 []) = .next { ready .cbc .pkcs7 [] with
    response := some ⟨0x00, marsEncrypt testKeys Config.sbox (xorb (rep 0x10 16) testIv) ++ []⟩ } := rfl

theorem test_decm_wrong_length : answer (exec .decm (ready .ctr .ansiX923 (rep 0 17))) = some ⟨0x02, []⟩ := by decide

theorem test_decm_empty : answer (exec .decm (ready .cbc .pkcs7 [])) = some ⟨0x05, []⟩ ∧
    answer (exec .decm (ready .cbc .zeros [])) = some ⟨0x00, []⟩ := by decide

theorem test_step_reserved_word : answer (step (issuing (fresh []) 0x07000000 [])) = some ⟨0x04, []⟩ ∧
    answer (step (issuing (configured .ecb .pkcs7 []) 0x05000000 [0])) = some ⟨0x04, []⟩ := by decide

theorem test_withFetchWord : (after (step (State.reset.withFetchWord 32 0x01410000))).map (fun t => (t.mode, t.commands, t.response)) =
    some (some .cbc, [], some ⟨0x00, []⟩) := by decide

/-! ## Witnesses: for each statement with hypotheses, a state and operands that meet them, at the ends of the ranges. The
external ciphers are opaque: what needs one present is shown for every engine that has it, and `toy8` shows that a record that
keeps the contract of R290 exists. -/

theorem fresh_coherent (input : Bytes) : Coherent (fresh input) :=
  ⟨⟨rfl, rfl, rfl, nofun⟩, ⟨nofun, rfl, rfl, nofun, nofun⟩, ⟨nofun, rfl, nofun⟩, nofun⟩

theorem configured_coherent (m : Mode) (p : Padding) (input : Bytes) : Coherent (configured m p input) :=
  ⟨⟨rfl, rfl, rfl, fun a h => (by cases h; rfl)⟩, ⟨nofun, rfl, rfl, nofun, nofun⟩, ⟨nofun, rfl, nofun⟩, nofun⟩

theorem testKeys_expanded (K : Subkeys) (h : some testKeys = some K) : ∃ key, marsKeyOk key = true ∧ K = marsExpand key :=
  ⟨testKey, by decide, by rw [test_v20]; exact (Option.some.inj h).symm⟩

theorem keyed_coherent (m : Mode) (p : Padding) (input : Bytes) : Coherent (keyed m p input) :=
  ⟨⟨rfl, rfl, rfl, fun a h => (by cases h; rfl)⟩, ⟨fun _ => rfl, rfl, rfl, testKeys_expanded, nofun⟩, ⟨nofun, rfl, nofun⟩,
    nofun⟩

theorem ready_coherent (m : Mode) (p : Padding) (input : Bytes) : Coherent (ready m p input) :=
  ⟨⟨rfl, rfl, rfl, fun a h => (by cases h; rfl)⟩, ⟨fun _ => rfl, rfl, rfl, testKeys_expanded, nofun⟩,
    ⟨fun _ => rfl, rfl, fun v a bs hv ha hb => (by
      have ha := Option.some.inj ha
      subst ha
      rw [← Option.some.inj hv, ← Option.some.inj hb]; rfl)⟩, nofun⟩

theorem keyed_marsKeyed (m : Mode) (p : Padding) (input : Bytes) : Keyed (keyed m p input) .mars 16 (marsCipher testKeys) :=
  ⟨⟨rfl, rfl, rfl⟩, rfl, rfl⟩

theorem ready_marsReady (m : Mode) (p : Padding) (input : Bytes) (h : m ≠ .ecb) :
    MessageReady (ready m p input) .mars 16 (marsCipher testKeys) m p testIv :=
  ⟨⟨⟨rfl, rfl, rfl⟩, rfl, rfl⟩, rfl, rfl, fun _ => ⟨rfl, rfl⟩, fun he => absurd he h⟩

theorem keyed_ecbReady (p : Padding) (input : Bytes) :
    MessageReady (keyed .ecb p input) .mars 16 (marsCipher testKeys) .ecb p [] :=
  ⟨⟨⟨rfl, rfl, rfl⟩, rfl, rfl⟩, rfl, rfl, fun h => absurd rfl h, fun _ => rfl⟩

/-- `TOY8` (T3) as a record of R290: a byte permutation with a count added, so `dec` undoes `enc`. -/
def toy8 : ExtCipher where
  bs := 8
  keyOk key := key.length == 8
  expand key := key
  enc _ b := b.map (· + 1)
  dec _ c := c.map (· - 1)
  bs_pos := by decide
  bs_le := by decide
  enc_length _ b h := by simpa using h
  dec_length _ c h := by simpa using h
  dec_enc _ b _ _ := by simp [Function.comp_def]

/-! The command word and the step -/

theorem test_hyp_DecodeAndEncodeAgree :
    decodeWord 0x04000fff = .ok (.geniv 0xfff) ∧ decodeWord 0x01fff000 = .ok (.cfg 15 15 15) := by decide

/-- One word at each end of each range of R78 and R79, with the clause it falls under. -/
theorem test_hyp_ReservedWordsAreRefused :
    (∀ w ∈ [(0x07000000 : Word), 0x0fffffff], 0x07 ≤ w.toNat / 2 ^ 24 ∧ w.toNat / 2 ^ 24 ≤ 0x0f) ∧
    (∀ w ∈ [(0x12000000 : Word), 0x1fffffff], 0x12 ≤ w.toNat / 2 ^ 24 ∧ w.toNat / 2 ^ 24 ≤ 0x1f) ∧
    (∀ w ∈ [(0x22000000 : Word), 0xffffffff], 0x22 ≤ w.toNat / 2 ^ 24) ∧
    (∀ w ∈ [(0x00000001 : Word), 0x21ffffff],
      w.toNat / 2 ^ 24 ≠ 0x01 ∧ w.toNat / 2 ^ 24 ≠ 0x04 ∧ w.toNat % 2 ^ 24 ≠ 0) ∧
    (∀ w ∈ [(0x01000001 : Word), 0x01ffffff], w.toNat / 2 ^ 24 = 0x01 ∧ w.toNat % 2 ^ 12 ≠ 0) ∧
    (∀ w ∈ [(0x04001000 : Word), 0x04ffffff], w.toNat / 2 ^ 24 = 0x04 ∧ w.toNat / 2 ^ 12 % 2 ^ 12 ≠ 0) ∧
    (issuing (fresh []) 0x07000000 []).commands = [⟨0x07000000, []⟩] := by simp [issuing]

/-- For EveryWordIsACommandOrIsRefused, StepRunsTheDecodedCommand (both clauses) and EveryAnswerHasAListedStatus. -/
theorem test_hyp_StepRunsTheDecodedCommand :
    (issuing (fresh []) 0x05000000 []).commands = [⟨0x05000000, []⟩] ∧ decodeWord 0x05000000 = .ok .blksz ∧
    (∃ t, step (issuing (fresh []) 0x05000000 []) = .next t) ∧ (fresh []).commands = [] := ⟨rfl, by decide, ⟨_, rfl⟩, rfl⟩

theorem test_hyp_FirstErrorInOrder :
    Coherent (issuing (fresh []) 0x02000000 [0]) ∧ (issuing (fresh []) 0x02000000 [0]).commands = [⟨0x02000000, [0]⟩] ∧
    firstError ((issuing (fresh []) 0x02000000 [0]).accept ⟨0x02000000, [0]⟩ []) .init = some .uninitializedCipher :=
  ⟨coherent_of_sameRegisters (fresh_coherent []) ⟨rfl, rfl, rfl, rfl, rfl, rfl, rfl, rfl, rfl⟩ nofun, rfl, by decide⟩

/-- Each check of R308 from its step 2 to its step 9 is the first to fail in a coherent state (fresh_coherent and the lemmas after
it; the RDKEY one is coherent on an engine that has DES), and none fails in the last. -/
theorem test_hyp_FirstErrorInOrder_each_check :
    firstError (fresh [0]) .blksz = some .unsupportedConfiguration ∧
    firstError (fresh []) (.cfg 5 0 0) = some .unsupportedConfiguration ∧
    firstError (fresh (rep 0 15)) .encb = some .uninitializedCipher ∧
    firstError (external .des []) .rdkey = some .unsupportedConfiguration ∧
    firstError (configured .cbc .pkcs7 (rep 0 15)) .init = some .invalidKey ∧
    firstError (configured .cbc .pkcs7 (rep 0 15)) .encb = some .invalidBlockSize ∧
    firstError (configured .cbc .pkcs7 (rep 0 16)) .encb = some .uninitializedCipher ∧
    firstError (keyed .cbc .pkcs7 []) .encm = some .uninitializedCipher ∧
    firstError (ready .cbc .pkcs7 []) .decm = some .padding ∧ firstError (ready .cbc .pkcs7 []) .encm = none := by decide

/-- For StepKeepsCoherence and CoherentEngineAlwaysAnswers. -/
theorem test_hyp_StepKeepsCoherence :
    Coherent (issuing (ready .cbc .pkcs7 []) 0x01450000 []) ∧
    ∃ t, step (issuing (ready .cbc .pkcs7 []) 0x01450000 []) = .next t :=
  ⟨coherent_of_sameRegisters (ready_coherent .cbc .pkcs7 []) ⟨rfl, rfl, rfl, rfl, rfl, rfl, rfl, rfl, rfl⟩ nofun,
    _, rfl⟩

theorem test_hyp_ResetLeavesNothingLoaded :
    ((ready .cbc .pkcs7 []).input = [] ∧ ∃ t, exec .reset (ready .cbc .pkcs7 []) = .next t) ∧
    SameRegisters State.reset (fresh []) ∧ needsConfiguration .blksz = true ∧ takesNoOperand .blksz = true ∧
    needsConfiguration .decm = true ∧ takesNoOperand .decm = false :=
  ⟨⟨rfl, _, rfl⟩, ⟨rfl, rfl, rfl, rfl, rfl, rfl, rfl, rfl, rfl⟩, rfl, rfl, rfl, rfl⟩

/-! What each command does -/

theorem test_hyp_ResetCompletes : (ready .ctr .zeros []).input = [] := rfl

theorem test_hyp_CfgCompletes :
    (fresh []).input = [] ∧ algOfCode 4 = some .mars ∧ modeOfCode 0 = some .ecb ∧ modeOfCode 5 = some .ctr ∧
    padOfCode 0 = some .pkcs7 ∧ padOfCode 3 = some .zeros ∧ algPresent .mars = true := by decide

theorem test_hyp_CfgCompletes_external (c : ExternalCipher) (x : ExtCipher) (h : Config.ext c = some x) :
    algOfCode (algCode (.external c)) = some (.external c) ∧ algPresent (.external c) = true :=
  ⟨by cases c <;> rfl, by rw [algPresent, h]; rfl⟩

theorem test_hyp_CfgRefusesWhatItCannotRun :
    (∀ alg ∈ [(5 : BitVec 4), 15], 5 ≤ alg.toNat) ∧ (∀ mode ∈ [(6 : BitVec 4), 15], 6 ≤ mode.toNat) ∧
    (∀ pad ∈ [(4 : BitVec 4), 15], 4 ≤ pad.toNat) ∧ algOfCode 0 = some (.external .des) := by decide

theorem test_hyp_InitCompletes :
    (configured .ctr .pkcs7 (rep 0 16)).cfgd = true ∧ (configured .ctr .pkcs7 (rep 0 16)).alg = some .mars ∧
    marsKeyOk (rep 0 16) = true ∧ marsKeyOk (rep 0 56) = true ∧ (external .des (rep 0 8)).cfgd = true ∧
    (external .des (rep 0 8)).alg = some (.external .des) ∧ toy8.keyOk (rep 0 8) = true := by decide

theorem test_hyp_InitRefusesOtherKeyLengths :
    (configured .ctr .pkcs7 []).cfgd = true ∧ (configured .ctr .pkcs7 []).alg = some .mars ∧
    ∀ n ∈ [0, 15, 17, 55, 57, 60], (rep 0 n).length ∉ [16, 20, 24, 28, 32, 36, 40, 44, 48, 52, 56] := by decide

/-- For SetivCompletes and BlkszCompletes. -/
theorem test_hyp_SetivCompletes :
    Configured (configured .ecb .zeros testIv) .mars 16 ∧ (configured .ecb .zeros testIv).input.length = 16 ∧
    Configured (configured .ctr .zeros []) .mars 16 ∧ (configured .ctr .zeros []).input = [] :=
  ⟨⟨rfl, rfl, rfl⟩, by decide, ⟨rfl, rfl, rfl⟩, rfl⟩

theorem test_hyp_SetivCompletes_external (c : ExternalCipher) (x : ExtCipher) (h : Config.ext c = some x) (input : Bytes) :
    Configured (external c input) (.external c) x.bs := ⟨rfl, rfl, by rw [algBlockSize, h]; rfl⟩

theorem test_hyp_GenivCompletes : (fresh []).input = [] ∧ (0 : BitVec 12).toNat = 0 ∧ (4095 : BitVec 12).toNat = 4095 := by
  decide

theorem test_hyp_RdkeyCompletes :
    (keyed .cbc .pkcs7 []).input = [] ∧ (keyed .cbc .pkcs7 []).cfgd = true ∧ (keyed .cbc .pkcs7 []).alg = some .mars ∧
    (keyed .cbc .pkcs7 []).inited = true ∧ (keyed .cbc .pkcs7 []).k = some testKeys := by decide

/-- For EncbCompletes, DecbCompletes and BlockCommandsRoundTrip. -/
theorem test_hyp_EncbCompletes :
    Coherent (keyed .cbc .pkcs7 testIv) ∧ Keyed (keyed .cbc .pkcs7 testIv) .mars 16 (marsCipher testKeys) ∧
    (keyed .cbc .pkcs7 testIv).input.length = 16 := ⟨keyed_coherent _ _ _, keyed_marsKeyed _ _ _, by decide⟩

/-- For EncmCompletes and CiphertextLengthIsTheNextMultiple: ECB without IV, another mode with one, an empty message. -/
theorem test_hyp_EncmCompletes :
    Coherent (keyed .ecb .iso10126 []) ∧
    MessageReady (keyed .ecb .iso10126 []) .mars 16 (marsCipher testKeys) .ecb .iso10126 [] ∧
    (∃ t, exec .encm (keyed .ecb .iso10126 []) = .next t) ∧ Coherent (ready .ctr .zeros testIv) ∧
    MessageReady (ready .ctr .zeros testIv) .mars 16 (marsCipher testKeys) .ctr .zeros testIv :=
  ⟨keyed_coherent _ _ _, keyed_ecbReady _ _, ⟨_, rfl⟩, ready_coherent _ _ _, ready_marsReady _ _ _ (by decide)⟩

/-- Under ZEROS every ciphertext of whole blocks unpads, so the hypothesis holds whatever the S-box is. -/
theorem test_hyp_DecmCompletes :
    MessageReady (ready .cbc .zeros testIv) .mars 16 (marsCipher testKeys) .cbc .zeros testIv ∧
    (ready .cbc .zeros testIv).input.length % 16 = 0 ∧
    ∃ msg, unpadMessage .zeros 16 (modeDecrypt .cbc 16 (marsCipher testKeys).enc (marsCipher testKeys).dec testIv
      (toBlocks 16 testIv)).flatten = some msg :=
  ⟨ready_marsReady _ _ _ (by decide), by decide, _, rfl⟩

theorem test_hyp_MessageCommandsRoundTrip :
    Coherent (ready .pcbc .zeros [0, 1]) ∧
    MessageReady (ready .pcbc .zeros [0, 1]) .mars 16 (marsCipher testKeys) .pcbc .zeros testIv ∧
    PaddingReversible .zeros [0, 1] ∧ PaddingReversible .zeros [] ∧ PaddingReversible .pkcs7 [0] :=
  ⟨ready_coherent _ _ _, ready_marsReady _ _ _ (by decide), fun _ => by decide, fun _ => by decide, fun h => by cases h⟩

/-! Errors and frames -/

/-- For ErrorsChangeNothing and FailedCommandsFailAgain: a word error, and an error of a command. -/
theorem test_hyp_ErrorsChangeNothing :
    (issuing (keyed .cbc .pkcs7 []) 0x07000000 []).commands = [⟨0x07000000, []⟩] ∧
    (∃ t, step (issuing (keyed .cbc .pkcs7 []) 0x07000000 []) = .next t ∧ t.response = some ⟨0x04, []⟩) ∧
    (∃ t, step (issuing (keyed .cbc .pkcs7 []) 0x02000000 [0]) = .next t ∧ t.response = some ⟨0x01, []⟩) ∧
    (0x04 : Byte) ≠ okCode ∧ (0x01 : Byte) ≠ okCode :=
  ⟨rfl, ⟨_, rfl, rfl⟩, ⟨_, rfl, rfl⟩, by decide, by decide⟩

theorem test_hyp_ErrorTableIsExact :
    (∃ t, exec .decm (ready .cbc .pkcs7 []) = .next t ∧ t.response = some ⟨0x05, []⟩) ∧
    Error.padding ∈ canRaise .decm ∧ Error.invalidKey ∈ canRaise .init ∧ Error.invalidBlockSize ∈ canRaise .setiv :=
  ⟨⟨_, rfl, rfl⟩, by decide, by decide, by decide⟩

/-- Each clause of CommandsWriteOnlyTheirColumns: ENCM writes none of the columns, and draws nothing under PKCS7. -/
theorem test_hyp_CommandsWriteOnlyTheirColumns :
    (∃ t, exec .encm (ready .cbc .pkcs7 []) = .next t) ∧ writesConfiguration .encm = false ∧ writesKey .encm = false ∧
    writesIv .encm = false ∧ drawsRandom (ready .cbc .pkcs7 []) .encm = false := ⟨⟨_, rfl⟩, by decide⟩

/-- A step that loads a key; a run of two steps that load none; and test_hyp_EncbCompletes for the third clause. -/
theorem test_hyp_ExpandedKeyIsImmutableAlongRuns :
    (∃ t, step (issuing (configured .cbc .pkcs7 []) 0x02000000 testKey) = .next t ∧ t.inited = true) ∧
    (∀ c ∈ (issuing (keyed .cbc .pkcs7 []) 0x03000000 testIv).commands, ∀ i, decodeWord c.word = .ok i → writesKey i = false) ∧
    ∃ t, Sys2Proof.core.run 2 (issuing (keyed .cbc .pkcs7 []) 0x03000000 testIv) = .next t := by
  refine ⟨⟨_, rfl, rfl⟩, fun c hc i hi => ?_, _, rfl⟩
  cases List.mem_singleton.1 hc
  have : decodeWord 0x03000000 = .ok .setiv := by decide
  rw [this] at hi
  cases hi
  rfl

theorem test_hyp_ResponsesDependOnRegistersAndOperandOnly :
    SameRegisters (keyed .cbc .pkcs7 []) { keyed .cbc .pkcs7 [] with draws := 7, commands := [⟨0, []⟩] } ∧
    drawsRandom (keyed .cbc .pkcs7 []) .blksz = false ∧ (∃ t, exec .blksz (keyed .cbc .pkcs7 []) = .next t) ∧
    ∃ t, exec .blksz { keyed .cbc .pkcs7 [] with draws := 7, commands := [⟨0, []⟩] } = .next t :=
  ⟨⟨rfl, rfl, rfl, rfl, rfl, rfl, rfl, rfl, rfl⟩, rfl, ⟨_, rfl⟩, ⟨_, rfl⟩⟩

/-! Words, keys and blocks -/

theorem test_hyp_RotationsMoveBitsAndUndoEachOther :
    (0 < 32 ∧ 31 < 32) ∧ (rotl 0x80000001 1).getLsbD ((31 + 1) % 32) = (0x80000001 : Word).getLsbD 31 := by decide

theorem test_hyp_StoreBlockInvertsLoadBlock : testIv.length = 16 ∧ storeBlock (loadBlock testIv) = testIv := by decide

theorem test_hyp_CombinedSboxIsTheTwoHalves :
    ((0 : BitVec 9).toNat < 256 ∧ (255 : BitVec 9).toNat < 256) ∧ 256 ≤ (256 : BitVec 9).toNat ∧ 256 ≤ (511 : BitVec 9).toNat := by
  decide

theorem test_hyp_ExpandedKeyStartsWithTheKey :
    marsKeyOk testKey = true ∧ (3 : Fin 40).val < testKey.length / 4 ∧ marsKeyOk (rep 0 56) = true ∧
    (13 : Fin 40).val < (rep 0 56).length / 4 := by decide

/-- For ScheduleYieldsFortyWords, ScheduleFollowsThePassTable and SixteenByteKeysRepeatSixSubkeys. -/
theorem test_hyp_ScheduleFollowsThePassTable :
    marsKeyOk (rep 0 16) = true ∧ (3, 32, 8) ∈ passTable ((rep 0 16).length / 4) ∧ (0 < 8 ∧ 7 < 8) ∧
    marsKeyOk (rep 0 56) = true ∧ (1, 28, 12) ∈ passTable ((rep 0 56).length / 4) ∧ testKey.length = 16 := by decide

/-- For MarsDecryptInvertsMarsEncrypt and MarsEncryptInvertsMarsDecrypt. -/
theorem test_hyp_MarsDecryptInvertsMarsEncrypt : (rep 0xff 16).length = 16 := by decide

/-! Padding and modes -/

theorem test_hyp_PadLengthIsLeast :
    (padDraws .iso10126 (padLength 255 254) = 0 ∧ padDraws .iso10126 (padLength 255 0) = 254) ∧
    (254 % 255 ≠ 0 ∧ 0 % 255 = 0 ∧ 3 % 1 = 0) ∧ (254 < 255 ∧ 255 % 255 = 0) := by decide

theorem test_hyp_CountedPaddingRoundTrips :
    Padding.iso10126 ≠ .zeros ∧ [7, 7].length = padDraws .iso10126 (padLength 4 [1].length) ∧
    ([] : Bytes).length = padDraws .pkcs7 (padLength 255 [1].length) := by decide

theorem test_hyp_ZerosPaddingStripsTrailingZeros :
    ([] : Bytes).getLast? ≠ some 0 ∧ ([0, 1] : Bytes).getLast? ≠ some 0 ∧ ([1, 0] : Bytes).getLast? = some 0 := by decide

theorem test_hyp_CountedSchemesAcceptTheirOwnPads :
    (rep 0x10 16).length % 16 = 0 ∧ ([] : Bytes).length % 255 = 0 ∧ ([1] : Bytes).length % 1 = 0 := by decide

/-- For ChainedModeEquations and IndependentAndCounterModeEquations: the first block and the last of two. -/
theorem test_hyp_ChainedModeEquations : 0 < [testKey, testIv].length ∧ 1 < [testKey, testIv].length := by decide

theorem test_hyp_StreamModesNeverCallDecBlock : Mode.cfb = .cfb ∧ Mode.ofb ≠ .cfb ∧ Mode.ctr ≠ .cfb := by decide

/-- The first, the middle and the last of three blocks change: every clause has a block. -/
theorem test_hyp_ChangedBlockPropagatesAsTheRulesSay :
    (∀ b : Bytes, b.length = 16 → (id b).length = 16 ∧ (id b).length = 16) ∧ testIv.length = 16 ∧
    (rep 0 16).length = 16 ∧ (∀ c ∈ [testKey, testIv, testKey], c.length = 16) ∧
    (∀ j ∈ [0, 1, 2], j < [testKey, testIv, testKey].length) ∧ 1 + 1 < [testKey, testIv, testKey].length :=
  ⟨fun _ h => ⟨h, h⟩, by decide, by decide, by decide, by decide, by decide⟩

/-- A name of each outcome; the ends of the range of the fold; a character on each side of it; a name with a space. -/
theorem test_hyp_NamesIgnoreAsciiCase :
    resolveMode ['r', 'a', 'n', 'd', 'o', 'm', '_', 'd', 'e', 'l', 't', 'a'] = .ok 6 ∧
    resolvePad ['P', 'K', 'C', 'S', '5'] = .error .unsupportedConfiguration ∧ (0 < 26 ∧ 25 < 26) ∧
    ('`'.toNat < 97 ∧ 122 < '~'.toNat) ∧ ' ' ∈ [' ', 'C', 'B', 'C'] := by decide

/-- For each clause: a list with the commands in either order, a key and an IV, and an IV length the helper can be asked for. -/
theorem test_hyp_InitialisationOrderReadiesTheEngine :
    (∀ keyAndIv ∈ [[commandOf .init testKey, commandOf .setiv testIv], [commandOf .setiv testIv, commandOf .init testKey]],
      (State.reset.issue (commandOf (.cfg (algCode .mars) (modeCode .cbc) (padCode .pkcs7)) [] :: keyAndIv)).commands =
        commandOf (.cfg (algCode .mars) (modeCode .cbc) (padCode .pkcs7)) [] :: keyAndIv ++ []) ∧
    marsKeyOk testKey = true ∧ testIv.length = 16 ∧ Configured (configured .cbc .pkcs7 []) .mars (16 : BitVec 12).toNat :=
  ⟨by decide, by decide, by decide, rfl, rfl, rfl⟩

end Sys2Proof.Tests
end

section
/-! # The state: coherence, progress and frames (10_state)

What a command does to the registers is named once, by `RegisterUpdate`, and `exec_update` ties it to `exec`. The invariant
and the frames are then case analyses over the eight updates. Progress goes through the guards instead: each guard of a
coherent engine goes on or answers an error. -/

namespace Sys2Proof.Machine

/-! ## What a successful command does to the state -/

/-- `RegisterUpdate s i u`: a command `i` that succeeds in `s` leaves the registers, the draws and the commands of `u`
(the "writes" columns of R38). -/
inductive RegisterUpdate (s : State) : Instr → State → Prop where
  | clear : RegisterUpdate s .reset s.clear
  | configure {alg mode pad a m p} : requestedConfig alg mode pad = some (a, m, p) →
      RegisterUpdate s (.cfg alg mode pad) (s.configure a m p)
  | loadSubkeys : s.cfgd = true → s.alg = some .mars → marsKeyOk s.input = true →
      RegisterUpdate s .init (s.loadSubkeys (marsExpand s.input))
  | loadExternalKey {c x} : s.cfgd = true → s.alg = some (.external c) → Config.ext c = some x →
      x.keyOk s.input = true → RegisterUpdate s .init (s.loadExternalKey (x.expand s.input))
  | loadIv {a} : Configured s a s.input.length → RegisterUpdate s .setiv (s.loadIv s.input)
  | draw {n} : RegisterUpdate s (.geniv n) (s.advanceDraws n.toNat)
  | drawFiller {p n} : s.pad = some p → RegisterUpdate s .encm (s.advanceDraws (padDraws p n))
  | read {i} : i ∈ [.blksz, .rdkey, .encb, .decb, .decm] → RegisterUpdate s i s

variable {s t u : State} {i : Instr}

/-- A command that answers either raised an error, or succeeded after its one register update. -/
theorem exec_update (h : exec i s = .next t) :
    (∃ e, t = s.raise e) ∨ ∃ u out, RegisterUpdate s i u ∧ t = u.succeed out := by
  cases i with
  | reset =>
    rcases execReset_next h with rfl | ⟨-, rfl⟩
    exacts [.inl ⟨_, rfl⟩, .inr ⟨_, _, .clear, rfl⟩]
  | cfg =>
    rcases execCfg_next h with rfl | ⟨-, _, _, _, hq, rfl⟩
    exacts [.inl ⟨_, rfl⟩, .inr ⟨_, _, .configure hq, rfl⟩]
  | init =>
    rcases execInit_next h with rfl | rfl | ⟨hc, ha, hk, rfl⟩ | ⟨_, _, hc, ha, hx, hk, rfl⟩
    exacts [.inl ⟨_, rfl⟩, .inl ⟨_, rfl⟩, .inr ⟨_, _, .loadSubkeys hc ha hk, rfl⟩,
      .inr ⟨_, _, .loadExternalKey hc ha hx hk, rfl⟩]
  | setiv =>
    rcases execSetiv_next h with rfl | rfl | ⟨_, _, hc, rfl, rfl⟩
    exacts [.inl ⟨_, rfl⟩, .inl ⟨_, rfl⟩, .inr ⟨_, _, .loadIv hc, rfl⟩]
  | geniv =>
    rcases execGeniv_next h with rfl | ⟨-, rfl⟩
    exacts [.inl ⟨_, rfl⟩, .inr ⟨_, _, .draw, rfl⟩]
  | blksz =>
    rcases execBlksz_next h with rfl | rfl | ⟨_, _, -, rfl⟩
    exacts [.inl ⟨_, rfl⟩, .inl ⟨_, rfl⟩, .inr ⟨_, _, .read (by simp), rfl⟩]
  | rdkey =>
    rcases execRdkey_next h with rfl | rfl | ⟨_, -, -, -, -, rfl⟩
    exacts [.inl ⟨_, rfl⟩, .inl ⟨_, rfl⟩, .inr ⟨_, _, .read (by simp), rfl⟩]
  | encb =>
    rcases execEncb_next h with rfl | rfl | ⟨_, _, _, -, -, rfl⟩
    exacts [.inl ⟨_, rfl⟩, .inl ⟨_, rfl⟩, .inr ⟨_, _, .read (by simp), rfl⟩]
  | decb =>
    rcases execDecb_next h with rfl | rfl | ⟨_, _, _, -, -, rfl⟩
    exacts [.inl ⟨_, rfl⟩, .inl ⟨_, rfl⟩, .inr ⟨_, _, .read (by simp), rfl⟩]
  | encm =>
    rcases execEncm_next h with rfl | ⟨_, _, _, _, _, _, ready, rfl⟩
    exacts [.inl ⟨_, rfl⟩, .inr ⟨_, _, .drawFiller ready.pad, rfl⟩]
  | decm =>
    rcases execDecm_next h with rfl | rfl | rfl | ⟨_, _, _, _, _, _, _, -, -, -, rfl⟩
    exacts [.inl ⟨_, rfl⟩, .inl ⟨_, rfl⟩, .inl ⟨_, rfl⟩, .inr ⟨_, _, .read (by simp), rfl⟩]

/-! ## Every update keeps coherence -/

theorem coherent_reset : Coherent State.reset :=
  ⟨⟨rfl, rfl, rfl, nofun⟩, ⟨nofun, rfl, rfl, nofun, nofun⟩, ⟨nofun, rfl, nofun⟩, nofun⟩

theorem sameRegisters_reset_clear (s : State) : SameRegisters State.reset s.clear :=
  ⟨rfl, rfl, rfl, rfl, rfl, rfl, rfl, rfl, rfl⟩

theorem coherent_clear (hs : Coherent s) : Coherent s.clear :=
  coherent_of_sameRegisters coherent_reset (sameRegisters_reset_clear s) hs.response

theorem coherent_configure (hs : Coherent s) {a : Alg} (m : Mode) (p : Padding) (ha : algPresent a = true) :
    Coherent (s.configure a m p) where
  config := ⟨rfl, rfl, rfl, fun _ h => Option.some.inj h ▸ ha⟩
  key := ⟨nofun, rfl, rfl, nofun, nofun⟩
  iv := ⟨nofun, rfl, nofun⟩
  response := hs.response

theorem coherent_loadSubkeys (hs : Coherent s) {key : Bytes} (hc : s.cfgd = true) (ha : s.alg = some .mars)
    (hk : marsKeyOk key = true) : Coherent (s.loadSubkeys (marsExpand key)) where
  config := { hs.config with }
  key := {
    configured := fun _ => hc
    k_iff := by simp [ha]
    xk_iff := by simpa [ha] using hs.key.xk_iff
    k_expanded := fun _ h => ⟨key, hk, (Option.some.inj h).symm⟩
    xk_expanded := fun _ _ _ _ h _ => by simp [ha] at h }
  iv := { hs.iv with }
  response := hs.response

theorem coherent_loadExternalKey (hs : Coherent s) {c : ExternalCipher} {x : ExtCipher} {key : Bytes} (hc : s.cfgd = true)
    (ha : s.alg = some (.external c)) (hx : Config.ext c = some x) (hk : x.keyOk key = true) :
    Coherent (s.loadExternalKey (x.expand key)) where
  config := { hs.config with }
  key := {
    configured := fun _ => hc
    k_iff := by simpa [ha, show (Alg.external c == .mars) = false from rfl] using hs.key.k_iff
    xk_iff := by simp [ha]
    k_expanded := hs.key.k_expanded
    xk_expanded := by
      rintro _ c' x' ⟨⟩ ha' hx'
      obtain rfl : c = c' := by simpa [ha] using ha'
      obtain rfl : x = x' := by simpa [hx] using hx'
      exact ⟨key, hk, rfl⟩ }
  iv := { hs.iv with }
  response := hs.response

theorem coherent_loadIv (hs : Coherent s) {a : Alg} {v : Bytes} (h : Configured s a v.length) : Coherent (s.loadIv v) where
  config := { hs.config with }
  key := { hs.key with }
  iv := {
    configured := fun _ => h.cfgd
    iv_iff := rfl
    iv_length := by
      rintro _ a' bs ⟨⟩ ha' hbs
      obtain rfl : a = a' := by simpa [h.alg] using ha'
      simpa [h.blockSize] using hbs }
  response := hs.response

theorem RegisterUpdate.coherent (h : RegisterUpdate s i u) (hs : Coherent s) : Coherent u := by
  cases h with
  | clear => exact coherent_clear hs
  | configure hq =>
    obtain ⟨-, -, -, present⟩ := requestedConfig_eq_some.1 hq
    exact coherent_configure hs _ _ present
  | loadSubkeys hc ha hk => exact coherent_loadSubkeys hs hc ha hk
  | loadExternalKey hc ha hx hk => exact coherent_loadExternalKey hs hc ha hx hk
  | loadIv hc => exact coherent_loadIv hs hc
  | draw | drawFiller => exact coherent_advanceDraws hs _
  | read => exact hs

theorem exec_coherent (hs : Coherent s) (h : exec i s = .next t) : Coherent t := by
  rcases exec_update h with ⟨e, rfl⟩ | ⟨u, out, hu, rfl⟩
  · exact coherent_raise hs e
  · exact coherent_succeed (hu.coherent hs) out

/-- Settles O9: every command keeps coherence, because each register update does. -/
theorem stepKeepsCoherence : Obligations.StepKeepsCoherence := by
  intro s t hs h
  cases hcs : s.commands with
  | nil => rw [step_nil hcs] at h; cases h; exact hs
  | cons c rest =>
    have accepted := coherent_accept hs c rest
    cases hd : decodeWord c.word with
    | error => rw [step_undecodable hcs hd] at h; cases h; exact coherent_raise accepted _
    | ok i => rw [step_decoded hcs hd] at h; exact exec_coherent accepted h

/-- Settles O8. -/
theorem resetIsCoherent : Obligations.ResetIsCoherent := coherent_reset

/-! ## A coherent engine answers -/

/-- The command answers: it neither faults nor is refused. -/
def Answered (r : Result) : Prop := ∃ t, r = .next t

theorem answered_next (t : State) : Answered (.next t) := ⟨t, rfl⟩

section Guards
variable {r : Result}

theorem require_answered {ok : Bool} {e : Error} (h : ok = true → Answered r) : Answered (require ok e s r) := by
  cases ok with
  | false => exact answered_next _
  | true => exact h rfl

theorem whenNoOperand_answered (h : Answered r) : Answered (whenNoOperand s r) := require_answered fun _ => h

theorem whenConfigured_answered (hs : Coherent s) {f : Alg → Result}
    (h : ∀ a bs m p, s.alg = some a → algBlockSize a = some bs → s.mode = some m → s.pad = some p → Answered (f a)) :
    Answered (whenConfigured s f) := by
  refine require_answered fun hc => ?_
  obtain ⟨a, m, p, bs, ha, hm, hp, hbs⟩ := hs.configured hc
  simpa only [withAlg, ha] using h a bs m p ha hbs hm hp

theorem whenInited_answered (hs : Coherent s) {a : Alg} (ha : s.alg = some a)
    (h : ∀ cipher, keyedCipher s a = some cipher → Answered r) : Answered (whenInited s r) :=
  require_answered fun hn => (hs.keyed hn ha).elim h

theorem whenIvReady_answered (hs : Coherent s) {m : Mode} {f : Bytes → Result} (h : ∀ v, Answered (f v)) :
    Answered (whenIvReady s m f) := by
  cases m with
  | ecb => exact h []
  | cbc | pcbc | cfb | ofb | ctr =>
    refine require_answered fun hv => ?_
    obtain ⟨v, hiv⟩ := hs.loadedIv hv
    simpa only [withIv, hiv] using h v

end Guards

theorem execInit_answered (hs : Coherent s) : Answered (execInit s) := by
  refine whenConfigured_answered hs fun a bs _ _ _ hbs _ _ => ?_
  cases a with
  | mars => exact require_answered fun _ => answered_next _
  | external c =>
    obtain ⟨x, hx, -⟩ := Option.map_eq_some_iff.1 hbs
    simp only [withExternal_of hx]
    exact require_answered fun _ => answered_next _

theorem execSetiv_answered (hs : Coherent s) : Answered (execSetiv s) := by
  refine whenConfigured_answered hs fun a bs _ _ _ hbs _ _ => ?_
  rw [withBlockSize_of hbs]
  exact require_answered fun _ => answered_next _

theorem execBlksz_answered (hs : Coherent s) : Answered (execBlksz s) := by
  refine whenNoOperand_answered (whenConfigured_answered hs fun a bs _ _ _ hbs _ _ => ?_)
  rw [withBlockSize_of hbs]
  exact answered_next _

theorem execRdkey_answered (hs : Coherent s) : Answered (execRdkey s) := by
  refine whenNoOperand_answered (whenConfigured_answered hs fun a _ _ _ ha _ _ _ => require_answered fun hmars => ?_)
  obtain rfl : a = .mars := beq_iff_eq.1 hmars
  refine whenInited_answered hs ha fun cipher hk => ?_
  obtain ⟨K, hK, -⟩ := Option.map_eq_some_iff.1 hk
  rw [withSubkeys_of hK]
  exact answered_next _

theorem blockCommand_answered (hs : Coherent s) (f : BlockCipher → Bytes → Bytes) : Answered (blockCommand f s) := by
  refine whenConfigured_answered hs fun a bs _ _ ha hbs _ _ => ?_
  rw [withBlockSize_of hbs]
  refine require_answered fun _ => whenInited_answered hs ha fun cipher hk => ?_
  rw [withCipher_of hk]
  exact answered_next _

theorem execEncm_answered (hs : Coherent s) : Answered (execEncm s) := by
  refine whenConfigured_answered hs fun a bs m p ha hbs hm hp => ?_
  rw [withBlockSize_of hbs]
  refine whenInited_answered hs ha fun cipher hk => ?_
  rw [withMode_of hm]
  refine whenIvReady_answered hs fun v => ?_
  rw [withCipher_of hk, withPadding_of hp]
  exact answered_next _

theorem execDecm_answered (hs : Coherent s) : Answered (execDecm s) := by
  refine whenConfigured_answered hs fun a bs m p ha hbs hm hp => ?_
  rw [withBlockSize_of hbs]
  refine require_answered fun _ => whenInited_answered hs ha fun cipher hk => ?_
  rw [withMode_of hm]
  refine whenIvReady_answered hs fun v => ?_
  rw [withCipher_of hk, withPadding_of hp]
  split
  · exact answered_next _
  · exact answered_next _

theorem exec_answered (i : Instr) (hs : Coherent s) : Answered (exec i s) := by
  cases i with
  | reset | cfg | geniv => exact whenNoOperand_answered (answered_next _)
  | init => exact execInit_answered hs
  | setiv => exact execSetiv_answered hs
  | blksz => exact execBlksz_answered hs
  | rdkey => exact execRdkey_answered hs
  | encb | decb => exact blockCommand_answered hs _
  | encm => exact execEncm_answered hs
  | decm => exact execDecm_answered hs

/-- Settles O10: in a coherent state every guard goes on or answers an error. -/
theorem coherentEngineAlwaysAnswers : Obligations.CoherentEngineAlwaysAnswers := by
  intro s hs
  cases hcs : s.commands with
  | nil => exact ⟨s, step_nil hcs⟩
  | cons c rest =>
    cases hd : decodeWord c.word with
    | error => exact ⟨_, step_undecodable hcs hd⟩
    | ok i => rw [step_decoded hcs hd]; exact exec_answered i (coherent_accept hs c rest)

/-! ## Nothing is loaded after reset -/

theorem exec_reset_of (h : s.input = []) : exec .reset s = .next (s.clear.succeed []) := whenNoOperand_of h

theorem whenConfigured_unconfigured {f : Alg → Result} (h : s.cfgd = false) :
    whenConfigured s f = .next (s.raise .uninitializedCipher) := by
  rw [whenConfigured, h, require_false]

theorem exec_unconfigured (hc : s.cfgd = false) (hi : needsConfiguration i = true)
    (hin : takesNoOperand i = true → s.input = []) : exec i s = .next (s.raise .uninitializedCipher) := by
  cases i with
  | reset | cfg | geniv => cases hi
  | init | setiv | encb | decb | encm | decm => exact whenConfigured_unconfigured hc
  | blksz | rdkey => exact (whenNoOperand_of (hin rfl)).trans (whenConfigured_unconfigured hc)

/-- Settles O7. -/
theorem resetLeavesNothingLoaded : Obligations.ResetLeavesNothingLoaded := by
  refine ⟨⟨rfl, rfl, rfl, rfl, rfl, rfl, rfl, rfl, rfl⟩, fun s t hin h => ?_, fun s i hs hi hin => ?_⟩
  · rw [exec_reset_of hin] at h
    cases h
    exact { sameRegisters_reset_clear s with }
  · exact ⟨_, exec_unconfigured hs.cfgd hi hin, answers_raise s _⟩

/-! ## The columns a command leaves untouched -/

namespace RegisterUpdate

theorem keeps_configuration (h : RegisterUpdate s i u) (hi : writesConfiguration i = false) :
    u.cfgd = s.cfgd ∧ u.alg = s.alg ∧ u.mode = s.mode ∧ u.pad = s.pad := by
  cases h with
  | clear | configure => cases hi
  | loadSubkeys | loadExternalKey | loadIv | draw | drawFiller | read => exact ⟨rfl, rfl, rfl, rfl⟩

theorem keeps_key (h : RegisterUpdate s i u) (hi : writesKey i = false) :
    u.inited = s.inited ∧ u.k = s.k ∧ u.xk = s.xk := by
  cases h with
  | clear | configure | loadSubkeys | loadExternalKey => cases hi
  | loadIv | draw | drawFiller | read => exact ⟨rfl, rfl, rfl⟩

theorem keeps_iv (h : RegisterUpdate s i u) (hi : writesIv i = false) : u.ivv = s.ivv ∧ u.iv = s.iv := by
  cases h with
  | clear | configure | loadIv => cases hi
  | loadSubkeys | loadExternalKey | draw | drawFiller | read => exact ⟨rfl, rfl⟩

theorem keeps_draws (h : RegisterUpdate s i u) (hi : drawsRandom s i = false) : u.draws = s.draws := by
  cases h with
  | draw => cases hi
  | @drawFiller p n hp =>
    cases p with
    | iso10126 => simp [drawsRandom, hp] at hi
    | pkcs7 | ansiX923 | zeros => rfl
  | clear | configure | loadSubkeys | loadExternalKey | loadIv | read => rfl

theorem keeps_commands (h : RegisterUpdate s i u) : u.commands = s.commands := by cases h <;> rfl

end RegisterUpdate

/-- Settles O29: an error writes nothing, and each register update writes its own columns only. -/
theorem commandsWriteOnlyTheirColumns : Obligations.CommandsWriteOnlyTheirColumns := by
  intro i s t h
  rcases exec_update h with ⟨e, rfl⟩ | ⟨u, out, hu, rfl⟩
  · exact ⟨fun _ => ⟨rfl, rfl, rfl, rfl⟩, fun _ => ⟨rfl, rfl, rfl⟩, fun _ => ⟨rfl, rfl⟩, fun _ => rfl, rfl⟩
  · exact ⟨hu.keeps_configuration, hu.keeps_key, hu.keeps_iv, hu.keeps_draws, hu.keeps_commands⟩

/-! ## The expanded key along a run -/

theorem run_succ_eq_next {M : Host.Core} {s t : M.State} {n : Nat} :
    M.run (n + 1) s = .next t ↔ ∃ u, M.step s = .next u ∧ M.run n u = .next t := by
  rw [Host.Core.run]
  cases M.step s with
  | next | fault | refused => simp

/-- A predicate that every step keeps holds after every run. -/
theorem run_keeps {M : Host.Core} {P : M.State → Prop} (hstep : ∀ s t, P s → M.step s = .next t → P t) {s t : M.State}
    {n : Nat} (hs : P s) (h : M.run n s = .next t) : P t := by
  induction n generalizing s with
  | zero => cases h; exact hs
  | succ n ih =>
    obtain ⟨u, hu, hrun⟩ := run_succ_eq_next.1 h
    exact ih (hstep s u hs hu) hrun

theorem step_commands_subset (h : step s = .next t) : t.commands ⊆ s.commands := by
  cases hcs : s.commands with
  | nil => rw [step_nil hcs] at h; cases h; simp [hcs]
  | cons c rest =>
    have taken : t.commands = rest := by
      rcases step_next hcs h with ⟨e, rfl⟩ | ⟨out, -, -, hrest⟩
      exacts [rfl, hrest]
    simp [taken]

/-- The expanded key and its flag are the same in the two states. -/
def SameKey (s t : State) : Prop := t.inited = s.inited ∧ t.k = s.k ∧ t.xk = s.xk

/-- A step keeps the expanded key, or it ran an INIT, CFG or RESET with success (R39). -/
theorem step_sameKey_or_writesKey (h : step s = .next t) :
    SameKey s t ∨ ∃ c rest i out, s.commands = c :: rest ∧ decodeWord c.word = .ok i ∧ writesKey i = true ∧
      t.response = some ⟨okCode, out⟩ := by
  cases hcs : s.commands with
  | nil => rw [step_nil hcs] at h; cases h; exact .inl ⟨rfl, rfl, rfl⟩
  | cons c rest =>
    cases hd : decodeWord c.word with
    | error => rw [step_undecodable hcs hd] at h; cases h; exact .inl ⟨rfl, rfl, rfl⟩
    | ok i =>
      rw [step_decoded hcs hd] at h
      rcases exec_update h with ⟨e, rfl⟩ | ⟨u, out, hu, rfl⟩
      · exact .inl ⟨rfl, rfl, rfl⟩
      · cases hw : writesKey i with
        | false => exact .inl (hu.keeps_key hw)
        | true => exact .inr ⟨c, rest, i, out, rfl, hd, hw, rfl⟩

/-- No command still to come is an INIT, CFG or RESET. -/
def IssuesNoKeyWrite (s : State) : Prop := ∀ c ∈ s.commands, ∀ i, decodeWord c.word = .ok i → writesKey i = false

theorem step_sameKey (hs : IssuesNoKeyWrite s) (h : step s = .next t) : SameKey s t := by
  rcases step_sameKey_or_writesKey h with same | ⟨c, rest, i, out, hcs, hd, hw, -⟩
  · exact same
  · have hc : c ∈ s.commands := by simp [hcs]
    exact absurd hw (by simp [hs c hc i hd])

theorem run_sameKey {n : Nat} (hs : IssuesNoKeyWrite s) (h : Sys2Proof.core.run n s = .next t) : SameKey s t := by
  have kept : IssuesNoKeyWrite t ∧ SameKey s t := by
    refine run_keeps (P := fun u : State => IssuesNoKeyWrite u ∧ SameKey s u) ?_ ⟨hs, rfl, rfl, rfl⟩ h
    rintro u v ⟨hu, hn, hk, hx⟩ hstep
    obtain ⟨hn', hk', hx'⟩ := step_sameKey hu hstep
    exact ⟨fun c hc => hu c (step_commands_subset hstep hc), hn'.trans hn, hk'.trans hk, hx'.trans hx⟩
  exact kept.2

theorem answers_succeed (s : State) (out : Bytes) : Answers s (s.succeed out) okCode out :=
  ⟨sameRegisters_succeed s out, rfl, rfl, rfl, rfl⟩

/-- A block command on a keyed engine answers the block function of `IN` (R129, R130). -/
theorem blockCommand_of_keyed {a : Alg} {bs : Nat} {cipher : BlockCipher} (h : Keyed s a bs cipher)
    (hl : s.input.length = bs) (f : BlockCipher → Bytes → Bytes) :
    blockCommand f s = .next (s.succeed (f cipher s.input)) := by
  obtain ⟨⟨hc, ha, hbs⟩, hn, hk⟩ := h
  rw [blockCommand, whenConfigured_of hc ha, withBlockSize_of hbs, hl, beq_self_eq_true, require_true, whenInited_of hn,
    withCipher_of hk]

/-- Settles O30: the first clause by one step, the second by induction on the run, the third by the block commands' one
form. -/
theorem expandedKeyIsImmutableAlongRuns : Obligations.ExpandedKeyIsImmutableAlongRuns := by
  refine ⟨fun s t h changed => ?_, fun n s t hs h => run_sameKey hs h, fun s K hs hl => ⟨?_, ?_⟩⟩
  · rcases step_sameKey_or_writesKey h with ⟨hn, hk, hx⟩ | wrote
    · simp [hn, hk, hx] at changed
    · exact wrote
  · exact ⟨_, blockCommand_of_keyed hs hl BlockCipher.enc, answers_succeed s _⟩
  · exact ⟨_, blockCommand_of_keyed hs hl BlockCipher.dec, answers_succeed s _⟩

end Sys2Proof.Machine
end

section
/-! # The byte orders of words and blocks (20_memory R50 to R52)

A word's value is the sum of its bytes, so taking a word's bytes and joining them undo each other; a block is the bytes of
its four words in turn. -/

namespace Sys2Proof.Machine

variable {b : Bytes} {w : Nat}

/-! ## Words -/

theorem toNat_append_eq_add {m n : Nat} (x : BitVec m) (y : BitVec n) : (x ++ y).toNat = x.toNat * 2 ^ n + y.toNat := by
  rw [BitVec.toNat_append, ← Nat.shiftLeft_add_eq_or_of_lt y.isLt, Nat.shiftLeft_eq]

theorem be32_toNat (b0 b1 b2 b3 : Byte) :
    (be32 b0 b1 b2 b3).toNat = b0.toNat * 2 ^ 24 + b1.toNat * 2 ^ 16 + b2.toNat * 2 ^ 8 + b3.toNat := by
  simp only [be32, toNat_append_eq_add]
  omega

theorem le32_eq_be32_reversed (b0 b1 b2 b3 : Byte) : le32 b0 b1 b2 b3 = be32 b3 b2 b1 b0 := rfl

theorem le32_toNat (b0 b1 b2 b3 : Byte) :
    (le32 b0 b1 b2 b3).toNat = b0.toNat + b1.toNat * 2 ^ 8 + b2.toNat * 2 ^ 16 + b3.toNat * 2 ^ 24 := by
  rw [le32_eq_be32_reversed, be32_toNat]
  omega

theorem extractByte_toNat (x : Word) (i : Nat) : (x.extractLsb' i 8).toNat = x.toNat / 2 ^ i % 2 ^ 8 := by
  rw [BitVec.extractLsb'_toNat, Nat.shiftRight_eq_div_pow]

@[simp] theorem leBytes_le32 (b0 b1 b2 b3 : Byte) : leBytes (le32 b0 b1 b2 b3) = [b0, b1, b2, b3] := by
  simp only [leBytes, List.cons.injEq, and_true, ← BitVec.toNat_inj, extractByte_toNat, le32_toNat]
  omega

theorem le32_of_leBytes (x : Word) :
    le32 (x.extractLsb' 0 8) (x.extractLsb' 8 8) (x.extractLsb' 16 8) (x.extractLsb' 24 8) = x := by
  simp only [← BitVec.toNat_inj, le32_toNat, extractByte_toNat]
  omega

/-- Settles O34: the sums are those of `be32` and `le32`; that each word takes its own four bytes is how the two loads are
defined. -/
theorem wordsHaveTheirByteOrders : Obligations.WordsHaveTheirByteOrders :=
  ⟨fun b0 b1 b2 b3 => ⟨be32_toNat b0 b1 b2 b3, le32_toNat b0 b1 b2 b3⟩, fun _ => ⟨rfl, fun _ => rfl⟩⟩

/-! ## Blocks -/

/-- The bytes of block word `w` are the block's bytes `4w` to `4w + 3` (R51). -/
theorem leBytes_blockWord (h : 4 * w + 4 ≤ b.length) : leBytes (blockWord b w) = (b.drop (4 * w)).take 4 := by
  rw [blockWord, leBytes_le32]
  simp (disch := omega) only [List.drop_eq_getElem_cons, List.getD_eq_getElem, List.take_succ_cons, List.take_zero]

theorem storeBlock_loadBlock (h : b.length = 16) : storeBlock (loadBlock b) = b := by
  have word (w : Nat) (hw : w < 4) : leBytes (blockWord b w) = (b.drop (4 * w)).take 4 := leBytes_blockWord (by omega)
  calc storeBlock (loadBlock b)
      = b.take 4 ++ (b.drop 4).take 4 ++ (b.drop 8).take 4 ++ (b.drop 12).take 4 := by
        simp [storeBlock, loadBlock, word]
    _ = b.take 16 := by rw [← List.take_add, ← List.take_add, ← List.take_add]
    _ = b := List.take_of_length_le h.le

@[simp] theorem storeBlock_length (D : Data) : (storeBlock D).length = 16 := rfl

@[simp] theorem loadBlock_storeBlock (D : Data) : loadBlock (storeBlock D) = D := by
  rw [loadBlock, Data.mk.injEq]
  exact ⟨le32_of_leBytes D.a, le32_of_leBytes D.b, le32_of_leBytes D.c, le32_of_leBytes D.d⟩

/-- Settles O35: each way by the inverse on one word; the last clause reads the string at each of its sixteen places. -/
theorem storeBlockInvertsLoadBlock : Obligations.StoreBlockInvertsLoadBlock := by
  refine ⟨fun _ => storeBlock_loadBlock, fun D => ⟨loadBlock_storeBlock D, storeBlock_length D⟩, fun D k => ?_⟩
  fin_cases k <;> exact ⟨rfl, rfl, rfl, rfl⟩

end Sys2Proof.Machine
end

section
/-! # Command words (30_encoding R70 to R82)

A word is its five fields, so whatever decodes is what the encoder writes back; a word that breaks R78 or R79 contradicts what
decoding says of it. -/

namespace Sys2Proof

variable {w : Word} {i : Instr}

/-! ## Decoding and encoding -/

theorem decodeWord_of_cfgOpc (h : opcField w = 0x01) : decodeWord w = decodeCfg w := by
  rw [decodeWord, h]
  rfl

theorem decodeWord_of_genivOpc (h : opcField w = 0x04) : decodeWord w = decodeGeniv w := by
  rw [decodeWord, h]
  rfl

theorem decodeWord_encode_cfg (alg mode pad : BitVec 4) :
    decodeWord (encode (.cfg alg mode pad)) = .ok (.cfg alg mode pad) := by
  obtain ⟨hopc, halg, hmode, hpad, hn⟩ := fields_packWord 0x01 alg mode pad 0
  simp only [encode, opcode, decodeWord_of_cfgOpc hopc, decodeCfg, halg, hmode, hpad, hn]
  rfl

theorem decodeWord_encode_geniv (n : BitVec 12) : decodeWord (encode (.geniv n)) = .ok (.geniv n) := by
  obtain ⟨hopc, -, -, -, hn⟩ := fields_packWord 0x04 0 0 0 n
  have unused : (packWord 0x04 0 0 0 n).toNat / 2 ^ 12 % 2 ^ 12 = 0 := by
    have := n.isLt
    simp only [packWord_toNat, BitVec.reduceToNat]
    omega
  simp only [encode, opcode, decodeWord_of_genivOpc hopc, decodeGeniv, (genivUnused_iff _).2 unused, hn]
  rfl

/-- Decoding the word of a command gives the command back (R71, R72). -/
theorem decodeWord_encode (i : Instr) : decodeWord (encode i) = .ok i := by
  cases i with
  | cfg alg mode pad => exact decodeWord_encode_cfg alg mode pad
  | geniv n => exact decodeWord_encode_geniv n
  | reset | init | setiv | blksz | rdkey | encb | decb | encm | decm => decide

theorem encode_injective : Function.Injective encode := fun i j h =>
  Except.ok.inj (by rw [← decodeWord_encode i, h, decodeWord_encode])

/-- The operation code of a decoded word, read as a number. -/
theorem decodeWord_ok_opcode (h : decodeWord w = .ok i) : w.toNat / 2 ^ 24 = (opcode i).toNat := by
  rw [← (decodeWord_ok h).1, opcField_toNat]

/-- A word that decodes is the word of the command it decodes to: the fields and the zero bits make up the whole word. -/
theorem encode_of_decodeWord (h : decodeWord w = .ok i) : encode i = w := by
  have hopc := decodeWord_ok_opcode h
  obtain ⟨-, hfields⟩ := decodeWord_ok h
  apply BitVec.eq_of_toNat_eq
  cases i with
  | cfg alg mode pad =>
    obtain ⟨rfl, rfl, rfl, hunused⟩ := hfields
    simp only [encode, packWord_toNat, algField_toNat, modeField_toNat, padField_toNat, BitVec.reduceToNat]
    omega
  | geniv n =>
    obtain ⟨rfl, hunused⟩ := hfields
    simp only [encode, packWord_toNat, countField_toNat, BitVec.reduceToNat]
    omega
  | reset | init | setiv | blksz | rdkey | encb | decb | encm | decm =>
    simp only [encode, packWord_toNat, BitVec.reduceToNat]
    omega

/-- Settles O2. -/
theorem decodeAndEncodeAgree : Obligations.DecodeAndEncodeAgree :=
  ⟨decodeWord_encode, fun _ _ => encode_of_decodeWord⟩

/-- Settles O1. -/
theorem specWordsDecode : Obligations.SpecWordsDecode := by
  unfold Obligations.SpecWordsDecode
  decide

end Sys2Proof

namespace Sys2Proof.Machine

variable {s : State} {c : Command} {rest : List Command} {alg mode pad : BitVec 4}

/-- Settles O5. -/
theorem stepRunsTheDecodedCommand : Obligations.StepRunsTheDecodedCommand :=
  ⟨fun s c rest _ h hd => ⟨step_decoded h hd, rfl, rfl, sameRegisters_accept s c rest, rfl, rfl⟩, fun _ => step_nil⟩

/-- A word that decodes to no command is answered 0x04 and changes nothing (R78, R79). -/
theorem step_undecodable_answers {e : DecodeError} (h : s.commands = c :: rest) (hd : decodeWord c.word = .error e) :
    ∃ t, step s = .next t ∧ Answers (s.accept c rest) t 0x04 [] :=
  ⟨_, step_undecodable h hd, answers_raise _ .unsupportedConfiguration⟩

/-- Settles O3: whatever decodes has an operation code of R72 and zero in the bits it does not use. -/
theorem reservedWordsAreRefused : Obligations.ReservedWordsAreRefused := by
  intro s c rest hcs hreserved
  cases hd : decodeWord c.word with
  | error e => exact step_undecodable_answers hcs hd
  | ok i =>
    exfalso
    have hopc := decodeWord_ok_opcode hd
    obtain ⟨-, hfields⟩ := decodeWord_ok hd
    cases i with
    | cfg | geniv | reset | init | setiv | blksz | rdkey | encb | decb | encm | decm =>
      simp only [opcode, BitVec.reduceToNat] at hopc hfields
      omega

/-! ## The refusals of CFG -/

/-- A configuration that CFG accepts has codes within the ranges of R73 to R75, and RANDOM_DELTA is not its mode (R266). -/
theorem codes_lt_of_requestedConfig {q : Alg × Mode × Padding} (h : requestedConfig alg mode pad = some q) :
    alg.toNat < 5 ∧ mode.toNat < 6 ∧ pad.toNat < 4 := by
  obtain ⟨halg, hmode, hpad, -⟩ := requestedConfig_eq_some.1 h
  have alg_lt : ∀ c, (algOfCode c).isSome = true → c.toNat < 5 := by decide
  have mode_lt : ∀ c, (modeOfCode c).isSome = true → c.toNat < 6 := by decide
  have pad_lt : ∀ c, (padOfCode c).isSome = true → c.toNat < 4 := by decide
  exact ⟨alg_lt alg (by simp [halg]), mode_lt mode (by simp [hmode]), pad_lt pad (by simp [hpad])⟩

theorem requestedConfig_absent {c : ExternalCipher} (halg : algOfCode alg = some (.external c)) (h : Config.ext c = none) :
    requestedConfig alg mode pad = none := by
  refine Option.eq_none_iff_forall_ne_some.2 fun q hq => ?_
  obtain ⟨ha, -, -, present⟩ := requestedConfig_eq_some.1 hq
  rw [← Option.some.inj (halg.symm.trans ha), algPresent, h] at present
  cases present

theorem requestedConfig_outOfRange (h : 5 ≤ alg.toNat ∨ 6 ≤ mode.toNat ∨ 4 ≤ pad.toNat) :
    requestedConfig alg mode pad = none := by
  refine Option.eq_none_iff_forall_ne_some.2 fun q hq => ?_
  obtain ⟨halg, hmode, hpad⟩ := codes_lt_of_requestedConfig hq
  omega

/-- A check makes no difference before the very error it raises. -/
theorem require_raise (ok : Bool) (e : Error) (s : State) : require ok e s (.next (s.raise e)) = .next (s.raise e) := by
  cases ok <;> rfl

/-- With or without an operand, a CFG that asks for no configuration is answered with the error (R80, R121). -/
theorem exec_cfg_refused (s : State) (h : requestedConfig alg mode pad = none) :
    exec (.cfg alg mode pad) s = .next (s.raise .unsupportedConfiguration) := by
  rw [exec, execCfg, h]
  exact require_raise _ _ s

/-- Settles O14: none of the four cases is a configuration CFG can grant. -/
theorem cfgRefusesWhatItCannotRun : Obligations.CfgRefusesWhatItCannotRun := by
  intro s alg mode pad hrefused
  refine ⟨_, exec_cfg_refused s ?_, answers_raise s _⟩
  rcases hrefused with h | h | h | ⟨c, hc, habsent⟩
  · exact requestedConfig_outOfRange (.inl h)
  · exact requestedConfig_outOfRange (.inr (.inl h))
  · exact requestedConfig_outOfRange (.inr (.inr h))
  · exact requestedConfig_absent hc habsent

/-- A CFG with an illegal field, the only kind of command without legal fields, asks for no configuration (R80). -/
theorem exec_illFormed (s : State) {i : Instr} (h : i.wellFormed = false) :
    exec i s = .next (s.raise .unsupportedConfiguration) := by
  cases i with
  | cfg alg mode pad =>
    refine exec_cfg_refused s (requestedConfig_outOfRange ?_)
    simp only [Instr.wellFormed, algCodeLegal, modeCodeLegal, padCodeLegal, Bool.and_eq_false_iff,
      decide_eq_false_iff_not] at h
    omega
  | reset | init | setiv | geniv | blksz | rdkey | encb | decb | encm | decm => cases h

/-- Settles O4: a word that decodes is the one word of its command, and runs it or has an illegal field; any other is
refused. -/
theorem everyWordIsACommandOrIsRefused : Obligations.EveryWordIsACommandOrIsRefused := by
  intro s c rest hcs
  cases hd : decodeWord c.word with
  | error e => exact .inr (step_undecodable_answers hcs hd)
  | ok i =>
    have hword := encode_of_decodeWord hd
    cases hwf : i.wellFormed with
    | true => exact .inl ⟨i, hwf, hword, fun i' h => encode_injective (h.trans hword.symm), step_decoded hcs hd⟩
    | false =>
      refine .inr ⟨_, ?_, answers_raise _ .unsupportedConfiguration⟩
      rw [step_decoded hcs hd, exec_illFormed _ hwf]

/-! ## Answers and runs -/

theorem code_toNat_le (e : Error) : e.code.toNat ≤ 5 := by cases e <;> decide

/-- Settles O6. -/
theorem everyAnswerHasAListedStatus : Obligations.EveryAnswerHasAListedStatus := by
  refine ⟨⟨rfl, rfl, rfl, rfl, rfl, rfl⟩, fun s t c rest hcs h => ?_⟩
  rcases step_next hcs h with ⟨e, rfl⟩ | ⟨out, hresponse, hinput, hcommands⟩
  · exact ⟨rfl, rfl, _, rfl, .inr ⟨code_toNat_le e, rfl⟩⟩
  · exact ⟨hcommands, hinput, _, hresponse, .inl rfl⟩

/-- A run goes on for any number of steps from a state of an invariant under which every step answers. -/
theorem run_answers {M : Host.Core} {P : M.State → Prop} (hanswers : ∀ s, P s → ∃ t, M.step s = .next t)
    (hkeeps : ∀ s t, P s → M.step s = .next t → P t) {s : M.State} (hs : P s) (n : Nat) : ∃ t, M.run n s = .next t := by
  induction n generalizing s with
  | zero => exact ⟨s, rfl⟩
  | succ n ih =>
    obtain ⟨u, hu⟩ := hanswers s hs
    obtain ⟨t, ht⟩ := ih (hkeeps s u hs hu)
    exact ⟨t, run_succ_eq_next.2 ⟨u, hu, ht⟩⟩

theorem coherent_issue (hs : Coherent s) (cs : List Command) : Coherent (s.issue cs) :=
  coherent_of_sameRegisters hs ⟨rfl, rfl, rfl, rfl, rfl, rfl, rfl, rfl, rfl⟩ hs.response

/-- Settles O11: coherence holds at reset, every step keeps it, and a coherent engine answers. -/
theorem runsFromResetNeverStop : Obligations.RunsFromResetNeverStop := fun cs n =>
  run_answers (M := Sys2Proof.core) (P := Coherent) coherentEngineAlwaysAnswers stepKeepsCoherence
    (coherent_issue resetIsCoherent cs) n

end Sys2Proof.Machine
end

section
/-! # Names (30_encoding R84 to R87)

Each family's table lists every name once, in upper case and without a space; a lookup folds the name and finds its row. -/

namespace Sys2Proof.Machine

variable {table rows : List (NameText × BitVec 4)} {name : NameText} {code : BitVec 4} {c : Char}

/-! ## The fold to upper case -/

theorem upperAscii_of_not_lower (h : c.toNat < 97 ∨ 122 < c.toNat) : upperAscii c = c := if_neg (by omega)

theorem upperAscii_lower {n : Nat} (h : n < 26) : upperAscii (Char.ofNat (97 + n)) = Char.ofNat (65 + n) := by
  revert n
  decide

@[simp] theorem upperAscii_idem (c : Char) : upperAscii (upperAscii c) = upperAscii c := by
  by_cases h : 97 ≤ c.toNat ∧ c.toNat ≤ 122
  · have folded : (upperAscii c).toNat = c.toNat - 32 := by
      rw [upperAscii, if_pos h, Char.toNat_ofNat, if_pos (.inl (by omega))]
    exact upperAscii_of_not_lower (by omega)
  · rw [upperAscii_of_not_lower (c := c) (by omega), upperAscii_of_not_lower (by omega)]

theorem map_upperAscii_idem (name : NameText) : (name.map upperAscii).map upperAscii = name.map upperAscii := by
  simp [Function.comp_def]

theorem space_mem_fold (h : ' ' ∈ name) : ' ' ∈ name.map upperAscii := List.mem_map.2 ⟨' ', h, rfl⟩

/-! ## Lookups -/

/-- The order of the rows does not matter to a lookup in a table without repeated names. -/
theorem lookupName_eq_ok_iff_of_perm (h : (table.map Prod.fst).Nodup) (hp : table.Perm rows) :
    lookupName table name = .ok code ↔ (name.map upperAscii, code) ∈ rows :=
  (lookupName_eq_ok_iff h).trans hp.mem_iff

theorem lookupName_fold (table : List (NameText × BitVec 4)) (name : NameText) :
    lookupName table (name.map upperAscii) = lookupName table name := by
  rw [lookupName, map_upperAscii_idem, lookupName]

theorem lookupName_space (hn : (table.map Prod.fst).Nodup) (ht : ∀ row ∈ table, ' ' ∉ row.1) (h : ' ' ∈ name) :
    lookupName table name = .error .unsupportedConfiguration := by
  cases hl : lookupName table name with
  | ok code => exact absurd (space_mem_fold h) (ht _ ((lookupName_eq_ok_iff hn).1 hl))
  | error e => rw [lookupName_error hl]

theorem resolveAlg_eq_ok_iff (exposes : Bool) :
    resolveAlg exposes name = .ok code ↔
      (name.map upperAscii, code) ∈ factoryNames ∨
        (exposes = true ∧ name.map upperAscii = ['M', 'A', 'R', 'S'] ∧ code = 4) := by
  cases exposes with
  | false => exact (lookupName_eq_ok_iff (by decide)).trans (by simp)
  | true => exact (lookupName_eq_ok_iff (by decide)).trans (by simp [or_comm])

/-- Settles O59: each family's lookup is the lookup in its table, whose rows the statement lists in the order of the codes. -/
theorem namesIgnoreAsciiCase : Obligations.NamesIgnoreAsciiCase := by
  refine ⟨fun exposes name code => ⟨resolveAlg_eq_ok_iff exposes, ?_, ?_⟩,
    fun _ _ _ => ⟨lookupName_error, lookupName_error, lookupName_error⟩,
    fun _ name => ⟨lookupName_fold _ name, lookupName_fold _ name, lookupName_fold _ name⟩,
    fun _ => upperAscii_lower, fun _ => upperAscii_of_not_lower, by decide, by decide,
    fun _ => lookupName_space (by decide) (by decide)⟩
  · exact lookupName_eq_ok_iff_of_perm (by decide) (by decide)
  · exact lookupName_eq_ok_iff_of_perm (by decide) (by decide)

end Sys2Proof.Machine
end

section
/-! # Rotations and index forms (40_word_arithmetic R104 to R107)

A rotation is known by where it sends each bit, and rotating right by `n` is rotating left by `32 - n`. A mask of low ones
keeps the low bits, so an index form is a slice, and an index form of a rotated word is the slice rotated into the low bits. -/

namespace Sys2Proof.Machine

variable {x : Word} {n k : Nat}

/-! ## Rotations -/

@[simp] theorem rotl_zero (x : Word) : rotl x 0 = x := rfl

theorem rotl_eq_shifts (h : 1 ≤ n) : rotl x n = (x <<< n) ||| (x >>> (32 - n)) := if_neg (by omega)

theorem rotl_getLsbD_moved (x : Word) (hn : n < 32) (hk : k < 32) : (rotl x n).getLsbD ((k + n) % 32) = x.getLsbD k := by
  rw [rotl_getLsbD x hn (by omega)]
  congr 1
  omega

theorem rotr_getLsbD_moved (x : Word) (hn : n < 32) (hk : k < 32) :
    (rotr x n).getLsbD ((k + 32 - n) % 32) = x.getLsbD k := by
  rw [rotr_getLsbD x hn (by omega)]
  congr 1
  omega

theorem rotr_rotl (x : Word) (h : n < 32) : rotr (rotl x n) n = x :=
  word_ext fun i hi => by rw [rotr_getLsbD _ h hi, rotl_getLsbD_moved x h hi]

theorem rotr_eq_rotl (h : 1 ≤ n) : rotr x n = rotl x (32 - n) := by
  rw [rotr, Nat.mod_eq_of_lt (by omega)]

theorem rotl_eq_rotr (h1 : 1 ≤ n) (h2 : n < 32) : rotl x n = rotr x (32 - n) := by
  rw [rotr_eq_rotl (by omega), Nat.sub_sub_self h2.le]

/-- Settles O32: both rotations by where they send each bit, the laws from that; the examples by evaluation. -/
theorem rotationsMoveBitsAndUndoEachOther : Obligations.RotationsMoveBitsAndUndoEachOther := by
  refine ⟨fun x n hn => ⟨rotl_eq_shifts, ?_, fun k => rotl_getLsbD_moved x hn, rfl, fun k => rotr_getLsbD_moved x hn,
    rotr_rotl x hn, rotl_eq_rotr (by omega) (by omega), rotr_eq_rotl (by omega)⟩, by decide, by decide⟩
  rintro rfl
  exact rotl_zero x

/-! ## Index and amount forms -/

theorem and_lowOnes_toNat (x : Word) (h : n ≤ 32) :
    (x &&& BitVec.ofNat 32 (2 ^ n - 1)).toNat = (x.extractLsb' 0 n).toNat := by
  have mask : 2 ^ n - 1 < 2 ^ 32 := by
    have := Nat.pow_le_pow_right (n := 2) (by omega) h
    omega
  rw [BitVec.toNat_and, BitVec.toNat_ofNat, Nat.mod_eq_of_lt mask, Nat.and_two_pow_sub_one_eq_mod,
    BitVec.extractLsb'_toNat, Nat.shiftRight_zero]

theorem setWidth_and_lowOnes (x : Word) (h : n ≤ 32) :
    (x &&& BitVec.ofNat 32 (2 ^ n - 1)).setWidth n = x.extractLsb' 0 n := by
  rw [← BitVec.toNat_inj, BitVec.toNat_setWidth, and_lowOnes_toNat x h, Nat.mod_eq_of_lt (BitVec.isLt _)]

theorem byteIndex_eq_slice (x : Word) : byteIndex x = x.extractLsb' 0 8 := setWidth_and_lowOnes x (by omega)

theorem nineBitIndex_eq_slice (x : Word) : nineBitIndex x = x.extractLsb' 0 9 := setWidth_and_lowOnes x (by omega)

theorem rotAmount_eq_slice (x : Word) : rotAmount x = (x.extractLsb' 0 5).toNat :=
  and_lowOnes_toNat (n := 5) x (by omega)

theorem byteIndex_rotr (x : Word) (h : n + 8 ≤ 32) : byteIndex (rotr x n) = x.extractLsb' n 8 := by
  rw [byteIndex_eq_slice]
  refine BitVec.eq_of_getLsbD_eq fun i hi => ?_
  rw [BitVec.getLsbD_extractLsb', BitVec.getLsbD_extractLsb', rotr_getLsbD x (by omega) (by omega)]
  congr 2
  omega

theorem byteIndex_rotl (x : Word) (h1 : 8 ≤ n) (h2 : n < 32) : byteIndex (rotl x n) = x.extractLsb' (32 - n) 8 := by
  rw [rotl_eq_rotr (by omega) h2, byteIndex_rotr x (by omega)]

theorem rotAmount_shiftRight (x : Word) (n : Nat) : rotAmount (shiftRight x n) = (x.extractLsb' n 5).toNat := by
  rw [rotAmount_eq_slice, BitVec.extractLsb'_toNat, BitVec.extractLsb'_toNat, shiftRight, BitVec.toNat_ushiftRight,
    Nat.shiftRight_zero]

/-- Settles O33: each form is a slice, and a rotation moves the slice it names into the low bits. -/
theorem indexFormsAreBitSlices : Obligations.IndexFormsAreBitSlices := fun A =>
  ⟨byteIndex_eq_slice A, byteIndex_rotr A (by omega), byteIndex_rotr A (by omega), byteIndex_rotr A (by omega),
    byteIndex_rotl A (by omega) (by omega), byteIndex_rotl A (by omega) (by omega), byteIndex_rotl A (by omega) (by omega),
    nineBitIndex_eq_slice A, rotAmount_shiftRight A 5, rotAmount_eq_slice A⟩

end Sys2Proof.Machine
end

section
/-! # The block functions of a keyed engine (41_blockcipher_commands R122, R131)

Decryption undoes encryption: for MARS because every step of the data path is undone in reverse order, for an external cipher
by the law of R290. A set of blocks is finite, so encryption then undoes decryption as well. -/

namespace Sys2Proof.Machine

variable {s : State}

/-! ## The steps of MARS and their inverses (44_mars_decrypt R201 to R207) -/

theorem rotl_rotr {n : Nat} (x : Word) (h1 : 1 ≤ n) (h2 : n < 32) : rotl (rotr x n) n = x := by
  rw [rotr_eq_rotl h1, rotl_eq_rotr h1 h2, rotr_rotl x (by omega)]

theorem addKeys_subKeys (K : Subkeys) (m : Fin 37) (D : Data) : addKeys K m (subKeys K m D) = D := by
  simp [addKeys, subKeys]

theorem subKeys_addKeys (K : Subkeys) (m : Fin 37) (D : Data) : subKeys K m (addKeys K m D) = D := by
  simp [addKeys, subKeys]

theorem undo_conditional_add (p : Prop) [Decidable p] (x y : Word) :
    (if p then (if p then x + y else x) - y else if p then x + y else x) = x := by
  by_cases h : p
  · simp [h]
  · simp [h]

theorem undo_conditional_sub (p : Prop) [Decidable p] (x y : Word) :
    (if p then (if p then x - y else x) + y else if p then x - y else x) = x := by
  by_cases h : p
  · simp [h]
  · simp [h]

theorem fwdRoundInv_fwdRound (S : SBox) (i : Nat) (D : Data) : fwdRoundInv S i (fwdRound S i D) = D := by
  simp [fwdRound, fwdRoundInv, undo_conditional_add, rotl_rotr]

theorem bwdRoundInv_bwdRound (S : SBox) (i : Nat) (D : Data) : bwdRoundInv S i (bwdRound S i D) = D := by
  simp [bwdRound, bwdRoundInv, undo_conditional_sub, rotr_rotl]

/-- The source word comes back first, so the E-function gives the same outputs again (R204). -/
theorem coreRoundInv_coreRound (S : SBox) (K : Subkeys) (i : Fin 16) (D : Data) :
    coreRoundInv S K i (coreRound S K i D) = D := by
  by_cases h : i.val < 8
  · simp [coreRound, coreRoundInv, h, rotr_rotl]
  · simp [coreRound, coreRoundInv, h, rotr_rotl]

/-- Rounds that are undone one by one are undone together, in reverse order. -/
theorem foldl_reverse_foldl {α β : Type} {f g : β → α → α} (h : ∀ i x, g i (f i x) = x) (is : List β) (x : α) :
    is.reverse.foldl (fun y i => g i y) (is.foldl (fun y i => f i y) x) = x := by
  induction is generalizing x with
  | nil => rfl
  | cons i is ih => rw [List.foldl_cons, List.reverse_cons, List.foldl_append, ih, List.foldl_cons, List.foldl_nil, h]

theorem decryptWords_encryptWords (K : Subkeys) (S : SBox) (D : Data) :
    decryptWords K S (encryptWords K S D) = D := by
  simp only [decryptWords, encryptWords, addKeys_subKeys, foldl_reverse_foldl (bwdRoundInv_bwdRound S),
    foldl_reverse_foldl (coreRoundInv_coreRound S K), foldl_reverse_foldl (fwdRoundInv_fwdRound S), subKeys_addKeys]

theorem marsDecrypt_marsEncrypt (K : Subkeys) (S : SBox) {b : Bytes} (h : b.length = 16) :
    marsDecrypt K S (marsEncrypt K S b) = b := by
  rw [marsDecrypt, marsEncrypt, loadBlock_storeBlock, decryptWords_encryptWords, storeBlock_loadBlock h]

/-! ## Lawful block functions -/

/-- `EncBlock` and `DecBlock` map blocks of `bs` bytes to blocks of `bs` bytes, and decryption undoes encryption (R290,
R131). -/
structure BlockCipher.Lawful (cipher : BlockCipher) (bs : Nat) : Prop where
  enc_length : ∀ b, b.length = bs → (cipher.enc b).length = bs
  dec_length : ∀ b, b.length = bs → (cipher.dec b).length = bs
  dec_enc : ∀ b, b.length = bs → cipher.dec (cipher.enc b) = b

/-- There are finitely many blocks of one size, so `EncBlock`, being injective, reaches every block. -/
theorem BlockCipher.Lawful.enc_dec {cipher : BlockCipher} {bs : Nat} (h : cipher.Lawful bs) {b : Bytes}
    (hb : b.length = bs) : cipher.enc (cipher.dec b) = b := by
  have : Finite Byte := Finite.of_equiv _ BitVec.equivFin.symm.toEquiv
  have finite : {b : Bytes | b.length = bs}.Finite := List.finite_length_eq Byte bs
  have injective : Set.InjOn cipher.enc {b : Bytes | b.length = bs} := Set.LeftInvOn.injOn h.dec_enc
  obtain ⟨b', hb', rfl⟩ := ((finite.injOn_iff_bijOn_of_mapsTo h.enc_length).1 injective).surjOn hb
  rw [h.dec_enc b' hb']

theorem marsCipher_lawful (K : Subkeys) : (marsCipher K).Lawful 16 where
  enc_length _ _ := storeBlock_length _
  dec_length _ _ := storeBlock_length _
  dec_enc _ := marsDecrypt_marsEncrypt K Config.sbox

theorem externalCipher_lawful (x : ExtCipher) {key : Bytes} (h : x.keyOk key = true) :
    (externalCipher x (x.expand key)).Lawful x.bs where
  enc_length := x.enc_length _
  dec_length := x.dec_length _
  dec_enc b := x.dec_enc key b h

theorem keyedCipher_external {c : ExternalCipher} {x : ExtCipher} (hx : Config.ext c = some x) :
    keyedCipher s (.external c) = s.xk.map (externalCipher x) := by
  rw [keyedCipher, hx]
  cases s.xk with
  | none | some => rfl

/-- In a coherent state the expanded key is that of a valid key, so the law of R290 holds of an external cipher. -/
theorem Coherent.lawful (hs : Coherent s) {a : Alg} {bs : Nat} {cipher : BlockCipher} (h : Keyed s a bs cipher) :
    cipher.Lawful bs := by
  obtain ⟨⟨-, ha, hbs⟩, -, hk⟩ := h
  cases a with
  | mars =>
    cases hbs
    obtain ⟨K, -, rfl⟩ := Option.map_eq_some_iff.1 hk
    exact marsCipher_lawful K
  | external c =>
    obtain ⟨x, hx, rfl⟩ := Option.map_eq_some_iff.1 hbs
    rw [keyedCipher_external hx] at hk
    obtain ⟨xk, hxk, rfl⟩ := Option.map_eq_some_iff.1 hk
    obtain ⟨key, hkey, rfl⟩ := hs.key.xk_expanded xk c x hxk ha hx
    exact externalCipher_lawful x hkey

/-! ## ENCB and DECB (R129 to R131) -/

/-- Settles O21. -/
theorem encbCompletes : Obligations.EncbCompletes := fun _ _ _ _ hs hl => blockCommand_of_keyed hs hl BlockCipher.enc

/-- Settles O22. -/
theorem decbCompletes : Obligations.DecbCompletes := fun _ _ _ _ hs hl => blockCommand_of_keyed hs hl BlockCipher.dec

theorem keyed_of_sameRegisters {t : State} {a : Alg} {bs : Nat} {cipher : BlockCipher} (hs : Keyed s a bs cipher)
    (h : SameRegisters s t) : Keyed t a bs cipher := by
  obtain ⟨⟨hc, ha, hbs⟩, hn, hk⟩ := hs
  refine ⟨⟨h.cfgd.trans hc, h.alg.trans ha, hbs⟩, h.inited.trans hn, ?_⟩
  simpa only [keyedCipher, h.k, h.xk] using hk

/-- A block command, then the other one on its result, answers the block if the second block function undoes the first. -/
theorem blockCommand_roundTrip {a : Alg} {bs : Nat} {cipher : BlockCipher} {f g : BlockCipher → Bytes → Bytes}
    (hs : Keyed s a bs cipher) (hl : s.input.length = bs) (hlen : (f cipher s.input).length = bs)
    (hundo : g cipher (f cipher s.input) = s.input) :
    ∃ t c u, blockCommand f s = .next t ∧ t.response = some ⟨okCode, c⟩ ∧
      blockCommand g { t with input := c } = .next u ∧ u.response = some ⟨okCode, s.input⟩ := by
  have again : Keyed { s.succeed (f cipher s.input) with input := f cipher s.input } a bs cipher :=
    keyed_of_sameRegisters hs ⟨rfl, rfl, rfl, rfl, rfl, rfl, rfl, rfl, rfl⟩
  refine ⟨_, _, _, blockCommand_of_keyed hs hl f, rfl, blockCommand_of_keyed again hlen g, ?_⟩
  rw [State.succeed_response, hundo]

/-- Settles O47: in a coherent state the block functions are lawful, so each undoes the other on blocks. -/
theorem blockCommandsRoundTrip : Obligations.BlockCommandsRoundTrip := by
  intro s a bs cipher hs hkeyed hl
  have lawful := hs.lawful hkeyed
  exact ⟨blockCommand_roundTrip hkeyed hl (lawful.enc_length _ hl) (lawful.dec_enc _ hl),
    blockCommand_roundTrip hkeyed hl (lawful.dec_length _ hl) (lawful.enc_dec hl)⟩

end Sys2Proof.Machine
end

section
/-! # The control commands (41_blockcipher_commands R120 to R128)

Each completes by its guards, one after the other: in the state its statement describes, every guard goes on. -/

namespace Sys2Proof.Machine

variable {s : State} {a : Alg} {bs : Nat}

/-- Settles O12. -/
theorem resetCompletes : Obligations.ResetCompletes := fun _ => exec_reset_of

/-- Settles O13: legal codes and a present cipher are a configuration CFG grants. -/
theorem cfgCompletes : Obligations.CfgCompletes := by
  intro s alg mode pad a m p hin halg hmode hpad present
  have requested : requestedConfig alg mode pad = some (a, m, p) :=
    requestedConfig_eq_some.2 ⟨halg, hmode, hpad, present⟩
  rw [exec, execCfg, whenNoOperand_of hin, requested]
  rfl

/-! ## INIT (R123, R124) -/

theorem marsKeyOk_iff_length (key : Bytes) :
    marsKeyOk key = true ↔ key.length ∈ [16, 20, 24, 28, 32, 36, 40, 44, 48, 52, 56] := by
  simp only [marsKeyOk, Bool.and_eq_true, decide_eq_true_eq, beq_iff_eq, List.mem_cons, List.not_mem_nil, or_false]
  omega

/-- INIT under MARS is its one check and the load of the expansion (R123). -/
theorem exec_init_mars (hc : s.cfgd = true) (ha : s.alg = some .mars) :
    exec .init s =
      require (marsKeyOk s.input) .invalidKey s (.next ((s.loadSubkeys (marsExpand s.input)).succeed [])) :=
  whenConfigured_of hc ha

/-- INIT under an external cipher is its one check and the load of the expansion (R123). -/
theorem exec_init_external {c : ExternalCipher} {x : ExtCipher} (hc : s.cfgd = true) (ha : s.alg = some (.external c))
    (hx : Config.ext c = some x) :
    exec .init s =
      require (x.keyOk s.input) .invalidKey s (.next ((s.loadExternalKey (x.expand s.input)).succeed [])) :=
  (whenConfigured_of hc ha).trans (withExternal_of hx)

/-- Settles O15: INIT is one check on a configured engine, and it passes. -/
theorem initCompletes : Obligations.InitCompletes := by
  refine fun s a hc ha => ⟨?_, ?_⟩
  · rintro rfl hkey
    rw [exec_init_mars hc ha, hkey]
    rfl
  · rintro c x rfl hx hkey
    rw [exec_init_external hc ha hx, hkey]
    rfl

/-- Settles O16: by the lengths `marsKeyOk` accepts; the check of INIT fails on every other. -/
theorem initRefusesOtherKeyLengths : Obligations.InitRefusesOtherKeyLengths := by
  refine ⟨marsKeyOk_iff_length, fun s hc ha hlen => ⟨_, ?_, answers_raise s .invalidKey⟩⟩
  have refused : marsKeyOk s.input = false := Bool.eq_false_iff.2 (mt (marsKeyOk_iff_length s.input).1 hlen)
  rw [exec_init_mars hc ha, refused, require_false]

/-! ## SETIV, GENIV and BLKSZ (R125 to R127) -/

/-- Settles O17. -/
theorem setivCompletes : Obligations.SetivCompletes := by
  rintro s a bs ⟨hc, ha, hbs⟩ hl
  rw [exec, execSetiv, whenConfigured_of hc ha, withBlockSize_of hbs, hl, beq_self_eq_true, require_true]
  rfl

theorem drawn_length (n : Nat) (s : State) : (s.drawn n).length = n := by simp [State.drawn]

/-- Settles O18. -/
theorem genivCompletes : Obligations.GenivCompletes := fun s n hin =>
  ⟨s.drawn n.toNat, drawn_length n.toNat s, whenNoOperand_of hin⟩

theorem exec_blksz_of_configured (h : Configured s a bs) (hin : s.input = []) :
    exec .blksz s = .next (s.succeed [BitVec.ofNat 8 bs]) := by
  obtain ⟨hc, ha, hbs⟩ := h
  rw [exec, execBlksz, whenNoOperand_of hin, whenConfigured_of hc ha, withBlockSize_of hbs]

/-- Settles O19. -/
theorem blkszCompletes : Obligations.BlkszCompletes := by
  refine fun s a bs h hin => ⟨?_, exec_blksz_of_configured h hin⟩
  rintro rfl
  exact (Option.some.inj h.blockSize).symm

/-! ## RDKEY (R128; 20_memory R53) -/

theorem exec_rdkey_of (hin : s.input = []) (hc : s.cfgd = true) (ha : s.alg = some .mars) (hn : s.inited = true)
    {K : Subkeys} (hk : s.k = some K) : exec .rdkey s = .next (s.succeed (subkeyBytes K)) := by
  rw [exec, execRdkey, whenNoOperand_of hin, whenConfigured_of hc ha, beq_self_eq_true, require_true, whenInited_of hn,
    withSubkeys_of hk]

@[simp] theorem beBytes_length (w : Word) : (beBytes w).length = 4 := rfl

/-- Byte `k` of a word, most significant first (R53). -/
theorem beBytes_getD (w : Word) (k : Fin 4) : (beBytes w).getD k.val 0 = w.extractLsb' (24 - 8 * k.val) 8 := by
  fin_cases k <;> rfl

/-- Every word takes four bytes, so byte `4i + k` of a string of words is byte `k` of word `i`. -/
theorem flatMap_beBytes_getD {ws : List Word} {i k : Nat} (hi : i < ws.length) (hk : k < 4) :
    (ws.flatMap beBytes).getD (4 * i + k) 0 = (beBytes ws[i]).getD k 0 := by
  induction ws generalizing i with
  | nil => cases hi
  | cons w ws ih =>
    rw [List.flatMap_cons]
    cases i with
    | zero => rw [Nat.mul_zero, Nat.zero_add, List.getD_append _ _ _ _ hk, List.getElem_cons_zero]
    | succ i =>
      rw [List.getD_append_right _ _ _ _ (by rw [beBytes_length]; omega), List.getElem_cons_succ,
        ← ih (Nat.lt_of_succ_lt_succ hi), beBytes_length]
      congr 1
      omega

theorem subkeyBytes_length (K : Subkeys) : (subkeyBytes K).length = 160 := by
  simp [subkeyBytes, List.length_flatMap]

theorem subkeyBytes_getD (K : Subkeys) (i : Fin 40) (k : Fin 4) :
    (subkeyBytes K).getD (4 * i.val + k.val) 0 = (K[i.val]).extractLsb' (24 - 8 * k.val) 8 := by
  rw [subkeyBytes, flatMap_beBytes_getD (by simp) k.isLt, beBytes_getD, Vector.getElem_toList]

/-- Settles O20: the answer is `subkeyBytes`, read byte by byte. -/
theorem rdkeyCompletes : Obligations.RdkeyCompletes := fun _ K hin hc ha hn hk =>
  ⟨subkeyBytes K, exec_rdkey_of hin hc ha hn hk, subkeyBytes_length K, subkeyBytes_getD K⟩

end Sys2Proof.Machine
end

section
/-! # The key schedule (42_mars_key_schedule R150 to R161)

The passes are listed from the fill counts alone, so that a word of the expanded key is found by its row of the table: its
pass wrote it over the words before it, and the later passes kept it. -/

namespace Sys2Proof.Machine

variable {key : Bytes} {K : List Word}

/-! ## The key words come first (R150, R151) -/

theorem keyWords_prefix_expandWords (key : Bytes) : keyWords key <+: expandWords key :=
  schedulePasses_prefix 40 0 (keyWords key)

theorem keyWords_getD {w : Nat} (h : w < key.length / 4) : (keyWords key).getD w 0 = keyWord key w := by
  simp [keyWords, h]

theorem marsExpand_getElem (key : Bytes) {i : Nat} (h : i < 40) : (marsExpand key)[i] = (expandWords key).getD i 0 :=
  Vector.getElem_ofFn h

/-- Settles O37: the schedule keeps the key words, and each is read big-endian. -/
theorem expandedKeyStartsWithTheKey : Obligations.ExpandedKeyStartsWithTheKey := by
  intro key _ w hw
  obtain ⟨appended, happ⟩ := keyWords_prefix_expandWords key
  rw [marsExpand_getElem, ← happ, List.getD_append _ _ _ _ (by rwa [keyWords_length]), keyWords_getD hw]
  rfl

/-! ## The array is filled to forty words (R158) -/

/-- Every pass over a non-empty array that is not full appends a word, so the array is full before the passes run out. -/
theorem schedulePasses_length : ∀ fuel j K, 0 < K.length → K.length ≤ 40 → 40 ≤ K.length + fuel →
    (schedulePasses fuel j K).length = 40
  | 0, _, _, _, hle, hfuel => le_antisymm hle hfuel
  | fuel + 1, j, K, hpos, hle, hfuel => by
    rw [schedulePasses]
    split
    · obtain ⟨T, hpass, hT⟩ := schedulePass_append j (min K.length (40 - K.length)) 0 K
      rw [hpass]
      have hlen := List.length_append (as := K) (bs := T)
      exact schedulePasses_length fuel (j + 1) _ (by omega) (by omega) (by omega)
    · omega

/-- A key that MARS accepts has 4 to 14 words (R124). -/
theorem key_words_of_marsKeyOk (h : marsKeyOk key = true) : 4 ≤ key.length / 4 ∧ key.length / 4 ≤ 14 := by
  simp only [marsKeyOk, Bool.and_eq_true, decide_eq_true_eq] at h
  omega

theorem expandWords_length (h : marsKeyOk key = true) : (expandWords key).length = 40 := by
  obtain ⟨hmin, hmax⟩ := key_words_of_marsKeyOk h
  have hlen := keyWords_length key
  exact schedulePasses_length 40 0 _ (by omega) (by omega) (by omega)

theorem marsExpand_toList (h : marsKeyOk key = true) : (marsExpand key).toList = expandWords key := by
  refine List.ext_getElem (by rw [Vector.length_toList, expandWords_length h]) fun i hi hi' => ?_
  rw [Vector.getElem_toList, marsExpand_getElem, List.getD_eq_getElem _ _ hi']

/-- Settles O38: what follows the key words is what is left of the forty. -/
theorem scheduleYieldsFortyWords : Obligations.ScheduleYieldsFortyWords := by
  intro key hkey
  obtain ⟨appended, happ⟩ := keyWords_prefix_expandWords key
  have hlen := congrArg List.length happ
  rw [List.length_append, keyWords_length, expandWords_length hkey] at hlen
  exact ⟨⟨appended, happ.symm, by omega⟩, expandWords_length hkey, marsExpand_toList hkey⟩

/-! ## Each pass of the table, and the word of each position (R152 to R160) -/

/-- The passes that `schedulePasses fuel j` makes over an array of `t` words, as rows of `passTable`. -/
def passRows : Nat → Nat → Nat → List (Nat × Nat × Nat)
  | 0, _, _ => []
  | fuel + 1, j, t => if t < 40 then (j, t, min t (40 - t)) :: passRows fuel (j + 1) (t + min t (40 - t)) else []

theorem passTable_eq_passRows {t0 : Nat} (hmin : 4 ≤ t0) (hmax : t0 ≤ 14) : passTable t0 = passRows 40 0 t0 := by
  interval_cases t0 <;> rfl

/-- The word at position `i` of each pass is steps 1 to 5 over the words before it: its own pass wrote it so, and the later
passes keep it and the words before it. -/
theorem schedulePasses_word {m tb n i : Nat} (hi : i < n) : ∀ fuel j K, (m, tb, n) ∈ passRows fuel j K.length →
    (schedulePasses fuel j K).getD (tb + i) 0 = scheduleWord ((schedulePasses fuel j K).take (tb + i)) i m
  | 0, _, _, hrow => absurd hrow List.not_mem_nil
  | fuel + 1, j, K, hrow => by
    by_cases notFull : K.length < 40
    · rw [passRows, if_pos notFull] at hrow
      rw [schedulePasses, if_pos notFull]
      generalize min K.length (40 - K.length) = count at hrow ⊢
      obtain ⟨T, hpass, hT⟩ := schedulePass_append j count 0 K
      have hlen : (schedulePass j count 0 K).length = K.length + count := by rw [hpass, List.length_append, hT]
      rcases List.mem_cons.1 hrow with hfirst | hlater
      · obtain ⟨later, hkept⟩ := schedulePasses_prefix fuel (j + 1) (schedulePass j count 0 K)
        cases hfirst
        rw [← hkept, List.getD_append _ _ _ _ (by omega), List.take_append_of_le_length (by omega),
          schedulePass_word m n 0 K i hi, Nat.zero_add]
      · exact schedulePasses_word hi fuel (j + 1) _ (hlen ▸ hlater)
    · rw [passRows, if_neg notFull] at hrow
      exact absurd hrow List.not_mem_nil

theorem getD_take_of_lt {α : Type} {l : List α} {n i : Nat} (d : α) (h : i < n) : (l.take n).getD i d = l.getD i d := by
  simp [List.getD_eq_getElem?_getD, h]

/-- The words of R155 lie below the fill count, so they are read in the whole array as in the part before position `t`. -/
theorem scheduleWord_take {t i j : Nat} (hi : i < t) (ht : t ≤ K.length) :
    scheduleWord (K.take t) i j =
      let u := rotl (K.getD i 0 ^^^ K.getD ((i + t - 1) % t) 0) 3 ^^^ keyConstant j ^^^ K.getD ((i + t - 2) % t) 0
      rotl u (u &&& 0x1f).toNat := by
  have below (n : Nat) : n % t < t := Nat.mod_lt n (by omega)
  simp only [scheduleWord, rotAmount, List.length_take_of_le ht, getD_take_of_lt _ hi, getD_take_of_lt _ (below _)]

/-- Every row starts over a non-empty array and stays within the forty subkeys. -/
theorem passTable_bounds (t0 : Nat) : ∀ row ∈ passTable t0, 0 < row.2.1 ∧ row.2.1 + row.2.2 ≤ 40 := by
  unfold passTable
  split <;> decide

/-- Settles O39: the table lists the passes the schedule makes, and each of their words is steps 1 to 5. -/
theorem scheduleFollowsThePassTable : Obligations.ScheduleFollowsThePassTable := by
  refine ⟨⟨rfl, rfl, rfl, rfl⟩, fun key hkey j tb n hrow i hi => ?_⟩
  obtain ⟨hpos, hend⟩ : 0 < tb ∧ tb + n ≤ 40 := passTable_bounds _ _ hrow
  have within : tb + i ≤ (expandWords key).length := by rw [expandWords_length hkey]; omega
  obtain ⟨hmin, hmax⟩ := key_words_of_marsKeyOk hkey
  rw [passTable_eq_passRows hmin hmax, ← keyWords_length] at hrow
  exact (schedulePasses_word hi 40 0 (keyWords key) hrow).trans (scheduleWord_take (by omega) within)

/-! ## The repeated subkeys of a 16-byte key (R161) -/

theorem cyclic_predecessors {i t : Nat} (h2 : 2 ≤ i) (hi : i < t) :
    (i + t - 1) % t = i - 1 ∧ (i + t - 2) % t = i - 2 := by
  rw [show i + t - 1 = i - 1 + t by omega, show i + t - 2 = i - 2 + t by omega, Nat.add_mod_right, Nat.add_mod_right]
  exact ⟨Nat.mod_eq_of_lt (by omega), Nat.mod_eq_of_lt (by omega)⟩

/-- From position 2 on the words of R155 are the two before position `i`, so the appended word does not depend on the fill
count. -/
theorem appended_word_of_two_le {j tb n i : Nat} (hkey : marsKeyOk key = true)
    (hrow : (j, tb, n) ∈ passTable (key.length / 4)) (h2 : 2 ≤ i) (hi : i < n) :
    (expandWords key).getD (tb + i) 0 =
      let K := expandWords key
      let u := rotl (K.getD i 0 ^^^ K.getD (i - 1) 0) 3 ^^^ keyConstant j ^^^ K.getD (i - 2) 0
      rotl u (u &&& 0x1f).toNat := by
  obtain ⟨hpos, -⟩ : 0 < tb ∧ tb + n ≤ 40 := passTable_bounds _ _ hrow
  obtain ⟨hprev, hprev2⟩ := cyclic_predecessors h2 (show i < tb + i by omega)
  obtain ⟨-, follows⟩ := scheduleFollowsThePassTable
  rw [follows key hkey j tb n hrow i hi, hprev, hprev2]

/-- Settles O40: passes 1 and 3, from fill counts 8 and 32, have one constant, so they append the same words from position 2
on. -/
theorem sixteenByteKeysRepeatSixSubkeys : Obligations.SixteenByteKeysRepeatSixSubkeys := by
  intro key hlen m
  have hkey : marsKeyOk key = true := by simp [marsKeyOk, hlen]
  have pass1 : (1, 8, 8) ∈ passTable (key.length / 4) := by rw [hlen]; decide
  have pass3 : (3, 32, 8) ∈ passTable (key.length / 4) := by rw [hlen]; decide
  rw [marsExpand_getElem, marsExpand_getElem, show 34 + m.val = 32 + (m.val + 2) by omega,
    show 10 + m.val = 8 + (m.val + 2) by omega,
    appended_word_of_two_le hkey pass3 (by omega) (by omega),
    appended_word_of_two_le hkey pass1 (by omega) (by omega), show keyConstant 3 = keyConstant 1 from rfl]

end Sys2Proof.Machine
end

section
/-! # The rounds of MARS encryption (43_mars_encrypt R172 to R181)

The two S-box tables are the halves of the combined one, so a lookup is named by its index in that one. The rules' word
arithmetic, masks and shifts are then read as naturals and bit slices, once per operation, and the rounds follow. -/

namespace Sys2Proof.Machine

/-! ## The two tables (R178) -/

theorem sbox0_eq (S : SBox) (x : Byte) : sbox0 S x = S (BitVec.ofNat 9 x.toNat) := by
  rw [sbox0, BitVec.ofNat_toNat]

theorem sbox1_eq (S : SBox) (x : Byte) : sbox1 S x = S (BitVec.ofNat 9 (256 + x.toNat)) := by
  rw [sbox1, BitVec.ofNat_add, BitVec.ofNat_toNat]
  rfl

theorem lookup_of_lt (S : SBox) {x : BitVec 9} (h : x.toNat < 256) : S x = sbox0 S (BitVec.ofNat 8 x.toNat) := by
  rw [sbox0_eq, BitVec.toNat_ofNat, Nat.mod_eq_of_lt h, BitVec.ofNat_toNat, BitVec.setWidth_eq]

theorem lookup_of_le (S : SBox) {x : BitVec 9} (h : 256 ≤ x.toNat) : S x = sbox1 S (BitVec.ofNat 8 (x.toNat - 256)) := by
  have below : x.toNat - 256 < 2 ^ 8 := by omega
  rw [sbox1_eq, BitVec.toNat_ofNat, Nat.mod_eq_of_lt below, Nat.add_sub_cancel' h, BitVec.ofNat_toNat, BitVec.setWidth_eq]

theorem bit8_iff (x : BitVec 9) : x.getLsbD 8 = true ↔ 256 ≤ x.toNat := by
  rw [← BitVec.msb_eq_getLsbD_last x, BitVec.msb_eq_decide, decide_eq_true_iff]

theorem lowByte_of_le {x : BitVec 9} (h : 256 ≤ x.toNat) : x.setWidth 8 = BitVec.ofNat 8 (x.toNat - 256) := by
  rw [← BitVec.toNat_inj, BitVec.toNat_setWidth, BitVec.toNat_ofNat]
  omega

/-- Settles O36: bit 8 is set from 256 on, and the low byte is the index less 256 there and the index itself below. -/
theorem combinedSboxIsTheTwoHalves : Obligations.CombinedSboxIsTheTwoHalves := by
  refine fun S x => ⟨lookup_of_lt S, lookup_of_le S, ?_⟩
  split
  case isTrue h => rw [lowByte_of_le ((bit8_iff x).1 h), lookup_of_le S ((bit8_iff x).1 h)]
  case isFalse h => rw [← BitVec.ofNat_toNat, lookup_of_lt S (by rwa [bit8_iff, not_le] at h)]

/-! ## The mixing rounds (R172, R181) -/

/-- Two conditional updates in a row, when no round takes both. -/
theorem exclusive_updates {p q : Prop} [Decidable p] [Decidable q] (h : p → ¬q) (f g : Word → Word) (x : Word) :
    (if q then g (if p then f x else x) else if p then f x else x) = if p then f x else if q then g x else x := by
  by_cases hp : p
  · simp [hp, h hp]
  · simp [hp]

theorem fwdRound_eq (S : SBox) (i : Nat) (A B C Dv : Word) :
    fwdRound S i ⟨A, B, C, Dv⟩ =
      let B' := (B ^^^ sbox0 S (A.extractLsb' 0 8)) + sbox1 S (A.extractLsb' 8 8)
      let Dv' := Dv ^^^ sbox1 S (A.extractLsb' 24 8)
      ⟨B', C + sbox0 S (A.extractLsb' 16 8), Dv',
        if i = 1 ∨ i = 5 then rotr A 24 + B' else if i = 0 ∨ i = 4 then rotr A 24 + Dv' else rotr A 24⟩ := by
  have exclusive : i = 1 ∨ i = 5 → ¬(i = 0 ∨ i = 4) := by omega
  have one_addition (y z : Word) := exclusive_updates exclusive (· + y) (· + z) (rotr A 24)
  simp only [fwdRound, one_addition, byteIndex_eq_slice A, byteIndex_rotr, Nat.reduceAdd, Nat.reduceLeDiff]

theorem bwdRound_eq (S : SBox) (i : Nat) (A B C Dv : Word) :
    bwdRound S i ⟨A, B, C, Dv⟩ =
      let A2 := if i = 3 ∨ i = 7 then A - B else if i = 2 ∨ i = 6 then A - Dv else A
      ⟨B ^^^ sbox1 S (A2.extractLsb' 0 8), C - sbox0 S (A2.extractLsb' 24 8),
        (Dv - sbox1 S (A2.extractLsb' 16 8)) ^^^ sbox0 S (A2.extractLsb' 8 8), rotl A2 24⟩ := by
  have exclusive : i = 3 ∨ i = 7 → ¬(i = 2 ∨ i = 6) := by omega
  have one_subtraction := exclusive_updates exclusive (· - B) (· - Dv) A
  simp (disch := omega) only [bwdRound, one_subtraction, byteIndex_rotl, Nat.reduceSub]
  rw [byteIndex_eq_slice]

/-- Settles O42: each round reads the table entries of the rules at slices, and those are entries of the combined table. -/
theorem mixingRoundsReadTheBytesOfA : Obligations.MixingRoundsReadTheBytesOfA := by
  intro S i A B C Dv
  simp only [fwdRound_eq, bwdRound_eq, sbox0_eq, sbox1_eq, Fin.ext_iff]
  exact ⟨rfl, rfl⟩

/-! ## The E-function and the core round (R175 to R177) -/

theorem shiftRight_eq_ofNat (x : Word) (n : Nat) : shiftRight x n = BitVec.ofNat 32 (x.toNat / 2 ^ n) := by
  rw [← BitVec.toNat_inj, shiftRight, BitVec.toNat_ushiftRight, Nat.shiftRight_eq_div_pow, BitVec.toNat_ofNat]
  exact (Nat.mod_eq_of_lt ((Nat.div_le_self _ _).trans_lt x.isLt)).symm

theorem eFunction_eq (S : SBox) (src k1 k2 : Word) :
    eFunction S src k1 k2 =
      let R := rotl (BitVec.ofNat 32 ((rotl src 13).toNat * k2.toNat)) 10
      let M := rotl (BitVec.ofNat 32 (src.toNat + k1.toNat)) (R.extractLsb' 5 5).toNat
      ⟨rotl (S (M.extractLsb' 0 9) ^^^ BitVec.ofNat 32 (R.toNat / 32) ^^^ R) (R.extractLsb' 0 5).toNat, M, R⟩ := by
  simp only [eFunction, BitVec.ofNat_add, BitVec.ofNat_mul, BitVec.ofNat_toNat, BitVec.setWidth_eq, nineBitIndex_eq_slice,
    rotAmount_shiftRight]
  simp only [rotAmount_eq_slice, shiftRight_eq_ofNat, Nat.reducePow]

theorem subkeys_toList_getD (K : Subkeys) {j : Nat} (h : j < 40) : K.toList.getD j 0 = K[j] := by simp [h]

/-- Settles O43: the E-function by its equation, then the round by its two subkeys. -/
theorem coreRoundsFollowTheEFunction : Obligations.CoreRoundsFollowTheEFunction := by
  intro S K i D k1 k2 R M L
  have he : eFunction S D.a k1 k2 = ⟨L, M, R⟩ := eFunction_eq S D.a k1 k2
  refine ⟨he, ?_⟩
  rw [coreRound, ← subkeys_toList_getD K (by omega), ← subkeys_toList_getD K (by omega)]
  simp only [he, k1, k2]

@[simp] theorem rotl_zero_word (n : Nat) : rotl 0#32 n = 0#32 := by simp [rotl]

/-- A zero product leaves both rotation amounts zero and nothing to mask with. -/
theorem eFunction_of_product_eq_zero (S : SBox) {src k1 k2 : Word} (h : rotl src 13 * k2 = 0#32) :
    eFunction S src k1 k2 = ⟨S (nineBitIndex (src + k1)), src + k1, 0#32⟩ := by
  have shifted : shiftRight 0#32 5 = 0#32 := rfl
  have unrotated : rotAmount 0#32 = 0 := rfl
  simp [eFunction, h, shifted, unrotated]

theorem eFunction_zero_src (S : SBox) (k1 k2 : Word) : eFunction S 0#32 k1 k2 = ⟨S (nineBitIndex k1), k1, 0#32⟩ := by
  rw [eFunction_of_product_eq_zero S (by simp), BitVec.zero_add]

/-- Settles O41: the product is zero when `k2` is, and when `src` is. -/
theorem eFunctionCornerCases : Obligations.EFunctionCornerCases := fun S _ _ _ =>
  ⟨eFunction_of_product_eq_zero S BitVec.mul_zero, congrArg EOut.r (eFunction_zero_src S _ _),
    congrArg EOut.m (eFunction_zero_src S _ _), eFunction_zero_src S 0 0⟩

end Sys2Proof.Machine
end

section
/-! # MARS decryption is the inverse of MARS encryption (44_mars_decrypt R200 to R207)

The round identities and the composed identity are the laws of the block functions; here they are stated for every S-box,
with the other direction of R131. -/

namespace Sys2Proof.Machine

/-- Settles O44: each round's own inverse law. -/
theorem everyRoundIsInverted : Obligations.EveryRoundIsInverted := fun S K D =>
  ⟨fun i => fwdRoundInv_fwdRound S i D, fun i => coreRoundInv_coreRound S K i D, fun i => bwdRoundInv_bwdRound S i D⟩

/-- Settles O45: the rounds undone in reverse order, between the load and the store of the block. -/
theorem marsDecryptInvertsMarsEncrypt : Obligations.MarsDecryptInvertsMarsEncrypt := fun K S _ => marsDecrypt_marsEncrypt K S

/-- MARS is lawful under every S-box, not only the configured one. -/
theorem mars_lawful (K : Subkeys) (S : SBox) : BlockCipher.Lawful ⟨marsEncrypt K S, marsDecrypt K S⟩ 16 where
  enc_length _ _ := storeBlock_length _
  dec_length _ _ := storeBlock_length _
  dec_enc _ := marsDecrypt_marsEncrypt K S

/-- Settles O46: encryption is injective on the finitely many blocks, so it undoes decryption too. -/
theorem marsEncryptInvertsMarsDecrypt : Obligations.MarsEncryptInvertsMarsDecrypt := fun K S c hc =>
  ⟨(mars_lawful K S).dec_length c hc, (mars_lawful K S).enc_dec hc⟩

end Sys2Proof.Machine
end

section
/-! # The padding schemes (45_padding R220 to R233)

The three counted schemes are settled by one law, `unpadMessage_eq_some_iff`: on whole blocks `Unpad` answers `msg` exactly for
`msg` followed by bytes that `padBytes` can append. The round trip is one half of it. ZEROS has no count byte, and is stated
through the library's `List.rdropWhile`. -/

namespace Sys2Proof.Machine

variable {p : Padding} {bs n : Nat} {filler msg out buf : Bytes}

/-! ## The pad length and the pad -/

theorem padLength_pos (h : 1 ≤ bs) (len : Nat) : 1 ≤ padLength bs len := by
  have := Nat.mod_lt len h
  unfold padLength; omega

theorem padLength_le (bs len : Nat) : padLength bs len ≤ bs := Nat.sub_le ..

/-- The padded message is one block more than the whole blocks of the message. -/
theorem add_padLength (h : 1 ≤ bs) (len : Nat) : len + padLength bs len = bs * (len / bs + 1) := by
  have := Nat.mod_lt len h
  have := Nat.div_add_mod len bs
  unfold padLength; rw [Nat.mul_succ]; omega

theorem padBytes_length (h : 1 ≤ n) (hf : filler.length = padDraws p n) : (padBytes p n filler).length = n := by
  cases p <;> simp [padBytes, padDraws, rep] at hf ⊢ <;> omega

/-- Settles O48: the padded length is the next multiple of `BS`, and every scheme appends as many bytes as the pad length. -/
theorem padLengthIsLeast : Obligations.PadLengthIsLeast := by
  intro bs len hbs hle
  have hpos := padLength_pos hbs len
  have hmax := padLength_le bs len
  refine ⟨rfl, fun h => by simp [padLength, h], ?_, hpos, hmax, by omega, by simp [add_padLength hbs], ?_⟩
  · rintro p filler msg rfl hf
    simp [padMessage, padBytes_length hpos hf]
  · intro m hlt hm
    obtain ⟨k, rfl⟩ := Nat.dvd_of_mod_eq_zero hm
    rw [add_padLength hbs]
    exact Nat.mul_le_mul_left bs (Nat.div_lt_of_lt_mul hlt)

/-! ## The counted schemes -/

/-- Every counted scheme ends its pad in the count byte. -/
theorem padBytes_eq_concat (hp : p ≠ .zeros) (h : 1 ≤ n) (hf : filler.length = padDraws p n) :
    ∃ before, before.length = n - 1 ∧ padBytes p n filler = before ++ [BitVec.ofNat 8 n] := by
  cases p with
  | pkcs7 =>
    obtain ⟨k, rfl⟩ := Nat.exists_eq_add_of_le' h
    exact ⟨rep _ k, by simp [rep], List.replicate_succ'⟩
  | ansiX923 => exact ⟨rep 0 (n - 1), by simp [rep], rfl⟩
  | iso10126 => exact ⟨filler, hf, rfl⟩
  | zeros => exact absurd rfl hp

theorem padCount_eq_some : padCount bs buf = some n ↔ ∃ c, buf.getLast? = some c ∧ c.toNat = n ∧ 1 ≤ n ∧ n ≤ bs := by
  unfold padCount
  cases buf.getLast? with
  | none => simp
  | some c => simp only [Option.ite_none_right_eq_some, Option.some_inj]; grind

theorem padCount_concat (h : 1 ≤ n) (hn : n ≤ bs) (hbs : bs ≤ 255) (xs : Bytes) :
    padCount bs (xs ++ [BitVec.ofNat 8 n]) = some n :=
  padCount_eq_some.2 ⟨_, List.getLast?_concat, by simp; omega, h, hn⟩

/-- A counted string of whole blocks holds all the bytes its last byte counts. -/
theorem exists_of_padCount (whole : buf.length % bs = 0) (h : padCount bs buf = some n) :
    1 ≤ n ∧ n ≤ bs ∧ ∃ msg before, before.length = n - 1 ∧ buf = msg ++ (before ++ [BitVec.ofNat 8 n]) := by
  obtain ⟨c, hlast, rfl, hpos, hle⟩ := padCount_eq_some.1 h
  obtain ⟨xs, rfl⟩ := List.getLast?_eq_some_iff.1 hlast
  have hblock : bs ≤ (xs ++ [c]).length := Nat.le_of_dvd (by simp) (Nat.dvd_of_mod_eq_zero whole)
  rw [List.length_append, List.length_singleton] at hblock
  refine ⟨hpos, hle, xs.take (xs.length - (c.toNat - 1)), xs.drop (xs.length - (c.toNat - 1)), ?_, ?_⟩
  · rw [List.length_drop]; omega
  · rw [← List.append_assoc, List.take_append_drop, BitVec.ofNat_toNat, BitVec.setWidth_eq]

theorem dropPad_append {pad : Bytes} (h : pad.length = n) : dropPad n (msg ++ pad) = msg := by
  subst h; simp [dropPad]

/-- On a string whose count fits, `Unpad` cuts the pad off, and checks that it is one of the scheme's own. -/
theorem unpadMessage_append {before : Bytes} (hp : p ≠ .zeros) (h : 1 ≤ n) (hn : n ≤ bs) (hbs : bs ≤ 255)
    (hb : before.length = n - 1) :
    unpadMessage p bs (msg ++ (before ++ [BitVec.ofNat 8 n])) = some out ↔
      msg = out ∧ ∃ filler, filler.length = padDraws p n ∧ before ++ [BitVec.ofNat 8 n] = padBytes p n filler := by
  have hcount : padCount bs (msg ++ (before ++ [BitVec.ofNat 8 n])) = some n := by
    rw [← List.append_assoc, padCount_concat h hn hbs]
  have hlen : (before ++ [BitVec.ofNat 8 n]).length = n := by simp; omega
  have hdrop := dropPad_append (msg := msg) hlen
  have htail : (msg ++ (before ++ [BitVec.ofNat 8 n])).drop
      ((msg ++ (before ++ [BitVec.ofNat 8 n])).length - n) = before ++ [BitVec.ofNat 8 n] := by
    rw [List.length_append, hlen, Nat.add_sub_cancel, List.drop_left]
  cases p with
  | pkcs7 =>
    have hown : (before ++ [BitVec.ofNat 8 n]).all (· == BitVec.ofNat 8 n) ↔
        before ++ [BitVec.ofNat 8 n] = rep (BitVec.ofNat 8 n) n := by
      rw [List.all_eq_true, rep, List.eq_replicate_iff, and_iff_right hlen]
      simp only [beq_iff_eq]
    simp only [unpadMessage, unpadPkcs7, hcount, htail, hdrop, hown]
    simp [padBytes, padDraws, and_comm]
  | ansiX923 =>
    have hown : ((before ++ [BitVec.ofNat 8 n]).take (n - 1)).all (· == 0) ↔
        before ++ [BitVec.ofNat 8 n] = rep 0 (n - 1) ++ [BitVec.ofNat 8 n] := by
      simp [rep, List.eq_replicate_iff, ← hb]
    simp only [unpadMessage, unpadAnsiX923, hcount, htail, hdrop, hown]
    simp [padBytes, padDraws, and_comm]
  | iso10126 =>
    simp [unpadMessage, unpadIso10126, hcount, hdrop, padBytes, padDraws, hb]
  | zeros => exact absurd rfl hp

theorem unpadMessage_of_padCount_eq_none (hp : p ≠ .zeros) (h : padCount bs buf = none) : unpadMessage p bs buf = none := by
  cases p with
  | pkcs7 => simp [unpadMessage, unpadPkcs7, h]
  | ansiX923 => simp [unpadMessage, unpadAnsiX923, h]
  | iso10126 => simp [unpadMessage, unpadIso10126, h]
  | zeros => exact absurd rfl hp

/-- The law of the counted schemes: on whole blocks, `Unpad` undoes the appending of any pad of the scheme's own, and
nothing else. -/
theorem unpadMessage_eq_some_iff (hp : p ≠ .zeros) (hle : bs ≤ 255) (whole : buf.length % bs = 0) :
    unpadMessage p bs buf = some msg ↔
      ∃ n filler, 1 ≤ n ∧ n ≤ bs ∧ filler.length = padDraws p n ∧ buf = msg ++ padBytes p n filler := by
  constructor
  · intro h
    have hcount : padCount bs buf ≠ none := fun hnone => by simp [unpadMessage_of_padCount_eq_none hp hnone] at h
    obtain ⟨n, hn⟩ := Option.ne_none_iff_exists'.1 hcount
    obtain ⟨hpos, hmax, front, before, hb, rfl⟩ := exists_of_padCount whole hn
    obtain ⟨rfl, filler, hf, hpad⟩ := (unpadMessage_append hp hpos hmax hle hb).1 h
    exact ⟨n, filler, hpos, hmax, hf, by rw [hpad]⟩
  · rintro ⟨n, filler, hpos, hmax, hf, rfl⟩
    obtain ⟨before, hb, hpad⟩ := padBytes_eq_concat hp hpos hf
    rw [hpad]
    exact (unpadMessage_append hp hpos hmax hle hb).2 ⟨rfl, filler, hf, hpad.symm⟩

/-- Settles O49: the padded message is whole blocks, and ends in a pad of the scheme's own. -/
theorem countedPaddingRoundTrips : Obligations.CountedPaddingRoundTrips := by
  intro p bs filler msg hp hbs hle hf
  have hpos := padLength_pos hbs msg.length
  have whole : (padMessage p bs filler msg).length % bs = 0 := by
    simp [padMessage, padBytes_length hpos hf, add_padLength hbs]
  exact (unpadMessage_eq_some_iff hp hle whole).2 ⟨_, filler, hpos, padLength_le .., hf, rfl⟩

/-- Settles O51: the law of the counted schemes, with each scheme's pad written out. -/
theorem countedSchemesAcceptTheirOwnPads : Obligations.CountedSchemesAcceptTheirOwnPads := by
  intro bs buf msg _ hle whole
  have law {p : Padding} (hp : p ≠ .zeros) := unpadMessage_eq_some_iff (msg := msg) hp hle whole
  refine ⟨(law (by decide)).trans ?_, (law (by decide)).trans ?_, (law (by decide)).trans ?_⟩ <;>
    simp [padDraws, padBytes]

/-! ## ZEROS -/

theorem unpadZeros_eq_rdropWhile (buf : Bytes) : unpadZeros buf = buf.rdropWhile (· == 0) := rfl

theorem unpadZeros_getLast? (buf : Bytes) : (unpadZeros buf).getLast? ≠ some 0 := by
  intro h
  have hne : unpadZeros buf ≠ [] := fun hnil => by simp [hnil] at h
  rw [List.getLast?_eq_some_getLast hne, Option.some_inj] at h
  exact List.rdropWhile_last_not (· == 0) buf hne (beq_iff_eq.2 h)

theorem unpadZeros_append_rep (msg : Bytes) (n : Nat) : unpadZeros (msg ++ rep 0 n) = unpadZeros msg := by
  induction n with
  | zero => simp [rep]
  | succ n ih =>
    rw [rep, List.replicate_succ', ← List.append_assoc, unpadZeros_eq_rdropWhile, List.rdropWhile_concat_pos _ _ _ (by rfl)]
    exact ih

theorem unpadZeros_eq_self (h : msg.getLast? ≠ some 0) : unpadZeros msg = msg := by
  rw [unpadZeros_eq_rdropWhile, List.rdropWhile_eq_self_iff]
  intro hne hz
  exact h (by rw [List.getLast?_eq_some_getLast hne, beq_iff_eq.1 hz])

/-- What `Unpad` strips under ZEROS is a run of zero bytes. -/
theorem exists_unpadZeros_append_rep (buf : Bytes) : ∃ n, buf = unpadZeros buf ++ rep 0 n := by
  have hzero : buf.rtakeWhile (· == 0) = rep 0 (buf.rtakeWhile (· == 0)).length :=
    List.eq_replicate_iff.2 ⟨rfl, fun _ hx => by simpa using List.mem_rtakeWhile_imp hx⟩
  exact ⟨_, by rw [← hzero, unpadZeros_eq_rdropWhile, List.rdropWhile_append_rtakeWhile]⟩

/-- Settles O50: what is stripped and what is kept, then that appended zeros are stripped with the message's own. -/
theorem zerosPaddingStripsTrailingZeros : Obligations.ZerosPaddingStripsTrailingZeros := by
  refine ⟨fun bs buf => ?_, fun bs filler msg => ?_⟩
  · obtain ⟨n, hn⟩ := exists_unpadZeros_append_rep buf
    exact ⟨_, n, rfl, hn, unpadZeros_getLast? buf⟩
  · have strips : unpadZeros (padMessage .zeros bs filler msg) = unpadZeros msg := unpadZeros_append_rep msg _
    exact ⟨congrArg some strips, fun h => congrArg some (strips.trans (unpadZeros_eq_self h))⟩

end Sys2Proof.Machine
end

section
/-! # The chaining modes (46_modes R252 to R263, R267, R268)

Every mode is one chain: block `j` of the output is made of block `j` of the input and, where the mode looks at them, of the
input and output blocks before it and of `j`. `encryptStep` and `decryptStep` are the twelve equations of R254 to R262, and
`modeEncrypt_eq_chain` and `modeDecrypt_eq_chain` tie them to the modes. What holds of every mode is then proved once, of
`chain`. -/

namespace Sys2Proof.Machine

variable {bs i j k : Nat} {a b c p x iv : Bytes} {xs : List Bytes} {E D : Bytes → Bytes}
  {f g : Nat → Bytes → Bytes → Bytes → Bytes}

/-! ## Exclusive or of blocks -/

theorem xorb_comm (a b : Bytes) : xorb a b = xorb b a := List.zipWith_comm_of_comm BitVec.xor_comm

theorem xorb_assoc (a b c : Bytes) : xorb (xorb a b) c = xorb a (xorb b c) := by
  refine List.ext_getElem (by simp [xorb_length, min_assoc]) fun i _ _ => ?_
  simp only [xorb_getElem, BitVec.xor_assoc]

theorem xorb_right_comm (a b c : Bytes) : xorb (xorb a b) c = xorb (xorb a c) b := by
  rw [xorb_assoc, xorb_comm b, ← xorb_assoc]

theorem xorb_block (ha : a.length = bs) (hb : b.length = bs) : (xorb a b).length = bs := by simp [xorb_length, ha, hb]

theorem xorb_xorb_cancel_right (ha : a.length = bs) (hb : b.length = bs) : xorb (xorb a b) b = a := by
  refine List.ext_getElem (by simp [xorb_length, ha, hb]) fun i _ _ => ?_
  simp only [xorb_getElem, BitVec.xor_assoc, BitVec.xor_self, BitVec.xor_zero]

/-! ## One chain for every mode -/

/-- The chain of `f` over a list of blocks, from block number `j` with the input block `u` and the output block `v` before
it: `f j u v x` is what the chain makes of the block `x`. -/
def chain (f : Nat → Bytes → Bytes → Bytes → Bytes) : Nat → Bytes → Bytes → List Bytes → List Bytes
  | _, _, _, [] => []
  | j, u, v, x :: xs => f j u v x :: chain f (j + 1) x (f j u v x) xs

/-- `C_j` of `P_j`, where `p` is `P_{j-1}` and `c` is `C_{j-1}` (R254, R255, R257, R259, R261, R262). -/
def encryptStep (mode : Mode) (E : Bytes → Bytes) (iv : Bytes) (j : Nat) (p c x : Bytes) : Bytes :=
  match mode with
  | .ecb => E x
  | .cbc => E (xorb x c)
  | .pcbc => E (xorb (xorb x c) p)
  | .cfb => xorb x (E c)
  | .ofb => xorb x (E^[j + 1] iv)
  | .ctr => xorb x (E (ctrAdd iv j))

/-- `P_j` of `C_j`, where `c` is `C_{j-1}` and `p` is `P_{j-1}` (R254, R256, R258, R260, R261, R262). -/
def decryptStep (mode : Mode) (E D : Bytes → Bytes) (iv : Bytes) (j : Nat) (c p x : Bytes) : Bytes :=
  match mode with
  | .ecb => D x
  | .cbc => xorb (D x) c
  | .pcbc => xorb (xorb (D x) c) p
  | .cfb => xorb x (E c)
  | .ofb => xorb x (E^[j + 1] iv)
  | .ctr => xorb x (E (ctrAdd iv j))

/-- What unfolds as the chain does is the chain. -/
theorem eq_chain {F : Nat → Bytes → Bytes → List Bytes → List Bytes} (nil : ∀ j u v, F j u v [] = [])
    (cons : ∀ j u v x xs, F j u v (x :: xs) = f j u v x :: F (j + 1) x (f j u v x) xs) (j : Nat) (u v : Bytes)
    (xs : List Bytes) : F j u v xs = chain f j u v xs := by
  induction xs generalizing j u v with
  | nil => exact nil j u v
  | cons x xs ih => rw [cons, ih, chain]

theorem ofbCrypt_iterate_cons (E : Bytes → Bytes) (iv : Bytes) (j : Nat) (x : Bytes) (xs : List Bytes) :
    ofbCrypt E (E^[j] iv) (x :: xs) = xorb x (E^[j + 1] iv) :: ofbCrypt E (E^[j + 1] iv) xs := by
  rw [ofbCrypt, Function.iterate_succ_apply']

theorem modeEncrypt_eq_chain (m : Mode) (bs : Nat) (E : Bytes → Bytes) (iv : Bytes) (xs : List Bytes) :
    modeEncrypt m bs E iv xs = chain (encryptStep m E iv) 0 (rep 0 bs) iv xs := by
  cases m with
  | ecb => exact eq_chain (F := fun _ _ _ xs => xs.map E) (fun _ _ _ => rfl) (fun _ _ _ _ _ => rfl) ..
  | cbc => exact eq_chain (F := fun _ _ c xs => cbcEncrypt E c xs) (fun _ _ _ => rfl) (fun _ _ _ _ _ => rfl) ..
  | pcbc => exact eq_chain (F := fun _ p c xs => pcbcEncrypt E c p xs) (fun _ _ _ => rfl) (fun _ _ _ _ _ => rfl) ..
  | cfb => exact eq_chain (F := fun _ _ c xs => cfbEncrypt E c xs) (fun _ _ _ => rfl) (fun _ _ _ _ _ => rfl) ..
  | ofb =>
    exact eq_chain (f := encryptStep .ofb E iv) (F := fun j _ _ xs => ofbCrypt E (E^[j] iv) xs) (fun _ _ _ => rfl)
      (fun j _ _ => ofbCrypt_iterate_cons E iv j) 0 (rep 0 bs) iv xs
  | ctr => exact eq_chain (F := fun j _ _ xs => ctrCrypt E iv j xs) (fun _ _ _ => rfl) (fun _ _ _ _ _ => rfl) ..

theorem modeDecrypt_eq_chain (m : Mode) (bs : Nat) (E D : Bytes → Bytes) (iv : Bytes) (xs : List Bytes) :
    modeDecrypt m bs E D iv xs = chain (decryptStep m E D iv) 0 iv (rep 0 bs) xs := by
  cases m with
  | ecb => exact eq_chain (F := fun _ _ _ xs => xs.map D) (fun _ _ _ => rfl) (fun _ _ _ _ _ => rfl) ..
  | cbc => exact eq_chain (F := fun _ c _ xs => cbcDecrypt D c xs) (fun _ _ _ => rfl) (fun _ _ _ _ _ => rfl) ..
  | pcbc => exact eq_chain (F := fun _ c p xs => pcbcDecrypt D c p xs) (fun _ _ _ => rfl) (fun _ _ _ _ _ => rfl) ..
  | cfb => exact eq_chain (F := fun _ c _ xs => cfbDecrypt E c xs) (fun _ _ _ => rfl) (fun _ _ _ _ _ => rfl) ..
  | ofb =>
    exact eq_chain (f := decryptStep .ofb E D iv) (F := fun j _ _ xs => ofbCrypt E (E^[j] iv) xs) (fun _ _ _ => rfl)
      (fun j _ _ => ofbCrypt_iterate_cons E iv j) 0 iv (rep 0 bs) xs
  | ctr => exact eq_chain (F := fun j _ _ xs => ctrCrypt E iv j xs) (fun _ _ _ => rfl) (fun _ _ _ _ _ => rfl) ..

/-! ## What holds of every chain -/

theorem chain_length (f : Nat → Bytes → Bytes → Bytes → Bytes) (k : Nat) (u v : Bytes) (xs : List Bytes) :
    (chain f k u v xs).length = xs.length := by
  induction xs generalizing k u v with
  | nil => rfl
  | cons x xs ih => rw [chain, List.length_cons, ih, List.length_cons]

/-- Block `j` of a chain, by the blocks before it. -/
theorem chain_getD (k : Nat) (u v : Bytes) (h : j < xs.length) :
    (chain f k u v xs).getD j [] =
      f (k + j) ((u :: xs).getD j []) ((v :: chain f k u v xs).getD j []) (xs.getD j []) := by
  induction xs generalizing k u v j with
  | nil => cases h
  | cons x xs ih =>
    cases j with
    | zero => rfl
    | succ j =>
      have later := ih (k + 1) x (f k u v x) (Nat.lt_of_succ_lt_succ h)
      rw [Nat.add_right_comm] at later
      exact later

theorem chain_take (f : Nat → Bytes → Bytes → Bytes → Bytes) (k : Nat) (u v : Bytes) (xs : List Bytes) (n : Nat) :
    (chain f k u v xs).take n = chain f k u v (xs.take n) := by
  induction xs generalizing k u v n with
  | nil => simp [chain]
  | cons x xs ih =>
    cases n with
    | zero => rfl
    | succ n => rw [chain, List.take_succ_cons, ih, List.take_succ_cons, chain]

theorem chain_blocks {u v : Bytes} (hf : ∀ j u v x, u.length = bs → v.length = bs → x.length = bs → (f j u v x).length = bs)
    (hu : u.length = bs) (hv : v.length = bs) (hx : ∀ x ∈ xs, x.length = bs) : ∀ y ∈ chain f k u v xs, y.length = bs := by
  induction xs generalizing k u v with
  | nil => nofun
  | cons x xs ih =>
    obtain ⟨hx, hxs⟩ := List.forall_mem_cons.1 hx
    have hy := hf k u v x hu hv hx
    exact List.forall_mem_cons.2 ⟨hy, ih hx hy hxs⟩

/-- A chain that undoes another block by block, from the same two blocks, undoes it as a whole: input and output blocks
change places. -/
theorem chain_chain (hf : ∀ j p c x, p.length = bs → c.length = bs → x.length = bs → (f j p c x).length = bs)
    (hg : ∀ j p c x, p.length = bs → c.length = bs → x.length = bs → g j c p (f j p c x) = x)
    (hp : p.length = bs) (hc : c.length = bs) (hx : ∀ x ∈ xs, x.length = bs) :
    chain g k c p (chain f k p c xs) = xs := by
  induction xs generalizing k p c with
  | nil => rfl
  | cons x xs ih =>
    obtain ⟨hx, hxs⟩ := List.forall_mem_cons.1 hx
    rw [chain, chain, hg k p c x hp hc hx, ih hx (hf k p c x hp hc hx) hxs]

/-! ## The block equations -/

/-- The block before block `j`, where the first has `u` before it. -/
theorem cons_getD (u : Bytes) (xs : List Bytes) (j : Nat) :
    (u :: xs).getD j [] = if j = 0 then u else xs.getD (j - 1) [] := by
  cases j <;> rfl

theorem modeEncrypt_getD (m : Mode) (bs : Nat) (E : Bytes → Bytes) (iv : Bytes) (h : j < xs.length) :
    (modeEncrypt m bs E iv xs).getD j [] =
      encryptStep m E iv j (if j = 0 then rep 0 bs else xs.getD (j - 1) [])
        (if j = 0 then iv else (modeEncrypt m bs E iv xs).getD (j - 1) []) (xs.getD j []) := by
  rw [modeEncrypt_eq_chain, chain_getD _ _ _ h, cons_getD, cons_getD, Nat.zero_add]

theorem modeDecrypt_getD (m : Mode) (bs : Nat) (E D : Bytes → Bytes) (iv : Bytes) (h : j < xs.length) :
    (modeDecrypt m bs E D iv xs).getD j [] =
      decryptStep m E D iv j (if j = 0 then iv else xs.getD (j - 1) [])
        (if j = 0 then rep 0 bs else (modeDecrypt m bs E D iv xs).getD (j - 1) []) (xs.getD j []) := by
  rw [modeDecrypt_eq_chain, chain_getD _ _ _ h, cons_getD, cons_getD, Nat.zero_add]

/-- Settles O52: the chained modes' equations are steps of their chains. -/
theorem chainedModeEquations : Obligations.ChainedModeEquations := fun bs E D iv _ _ h =>
  ⟨modeEncrypt_getD .cbc bs E iv h, modeDecrypt_getD .cbc bs E D iv h, modeEncrypt_getD .pcbc bs E iv h,
    modeDecrypt_getD .pcbc bs E D iv h, modeEncrypt_getD .cfb bs E iv h, modeDecrypt_getD .cfb bs E D iv h⟩

/-- Settles O53: the other modes' equations are steps of their chains. -/
theorem independentAndCounterModeEquations : Obligations.IndependentAndCounterModeEquations := fun bs E D iv _ _ h =>
  ⟨modeEncrypt_getD .ecb bs E iv h, modeDecrypt_getD .ecb bs E D iv h, modeEncrypt_getD .ofb bs E iv h,
    modeDecrypt_getD .ofb bs E D iv h, modeEncrypt_getD .ctr bs E iv h, modeDecrypt_getD .ctr bs E D iv h⟩

/-! ## The counter (R263) -/

theorem natOfBytes_bytesOfNat (n v : Nat) : natOfBytes (bytesOfNat n v) = v % 256 ^ n := by
  induction n generalizing v with
  | zero => rw [pow_zero, Nat.mod_one]; rfl
  | succ n ih =>
    rw [bytesOfNat, natOfBytes_append_singleton, ih, BitVec.toNat_ofNat, pow_succ' 256 n, Nat.mod_mul, Nat.add_comm,
      Nat.mul_comm]

theorem ctrAdd_length (iv : Bytes) (j : Nat) : (ctrAdd iv j).length = iv.length := bytesOfNat_length ..

/-- Settles O54: the counter's bytes are those of a number below `256^BS`. -/
theorem ctrAddCountsBigEndian : Obligations.CtrAddCountsBigEndian := fun iv j =>
  ⟨ctrAdd_length iv j, by rw [ctrAdd, natOfBytes_bytesOfNat, Nat.mod_mod]⟩

/-! ## Which block function a mode calls, and how many blocks it answers (R267) -/

theorem modeEncrypt_length (m : Mode) (bs : Nat) (E : Bytes → Bytes) (iv : Bytes) (xs : List Bytes) :
    (modeEncrypt m bs E iv xs).length = xs.length := by
  rw [modeEncrypt_eq_chain, chain_length]

theorem modeDecrypt_length (m : Mode) (bs : Nat) (E D : Bytes → Bytes) (iv : Bytes) (xs : List Bytes) :
    (modeDecrypt m bs E D iv xs).length = xs.length := by
  rw [modeDecrypt_eq_chain, chain_length]

/-- Settles O55. -/
theorem streamModesNeverCallDecBlock : Obligations.StreamModesNeverCallDecBlock := by
  refine fun bs E D D' iv xs => ⟨?_, ?_, fun m => ⟨modeEncrypt_length .., modeDecrypt_length ..⟩⟩
  · rintro m (rfl | rfl | rfl) <;> rfl
  · rintro m (rfl | rfl) <;> rfl

/-! ## Blocks of one size -/

theorem iterate_block (hE : ∀ b, b.length = bs → (E b).length = bs) (hiv : iv.length = bs) (n : Nat) :
    (E^[n] iv).length = bs :=
  Function.Iterate.rec (fun b : Bytes => b.length = bs) hiv hE n

theorem encryptStep_block (m : Mode) (hE : ∀ b, b.length = bs → (E b).length = bs) (hiv : iv.length = bs) (j : Nat)
    (hp : p.length = bs) (hc : c.length = bs) (hx : x.length = bs) : (encryptStep m E iv j p c x).length = bs := by
  cases m with
  | ecb => exact hE _ hx
  | cbc => exact hE _ (xorb_block hx hc)
  | pcbc => exact hE _ (xorb_block (xorb_block hx hc) hp)
  | cfb => exact xorb_block hx (hE _ hc)
  | ofb => exact xorb_block hx (iterate_block hE hiv _)
  | ctr => exact xorb_block hx (hE _ ((ctrAdd_length iv j).trans hiv))

theorem decryptStep_block (m : Mode) (hE : ∀ b, b.length = bs → (E b).length = bs)
    (hD : ∀ b, b.length = bs → (D b).length = bs) (hiv : iv.length = bs) (j : Nat)
    (hc : c.length = bs) (hp : p.length = bs) (hx : x.length = bs) : (decryptStep m E D iv j c p x).length = bs := by
  cases m with
  | ecb => exact hD _ hx
  | cbc => exact xorb_block (hD _ hx) hc
  | pcbc => exact xorb_block (xorb_block (hD _ hx) hc) hp
  | cfb => exact xorb_block hx (hE _ hc)
  | ofb => exact xorb_block hx (iterate_block hE hiv _)
  | ctr => exact xorb_block hx (hE _ ((ctrAdd_length iv j).trans hiv))

theorem modeEncrypt_blocks (m : Mode) (hE : ∀ b, b.length = bs → (E b).length = bs) (hiv : iv.length = bs)
    (hx : ∀ x ∈ xs, x.length = bs) : ∀ y ∈ modeEncrypt m bs E iv xs, y.length = bs := by
  rw [modeEncrypt_eq_chain]
  exact chain_blocks (fun j _ _ _ => encryptStep_block m hE hiv j) List.length_replicate hiv hx

theorem modeDecrypt_blocks (m : Mode) (hE : ∀ b, b.length = bs → (E b).length = bs)
    (hD : ∀ b, b.length = bs → (D b).length = bs) (hiv : iv.length = bs) (hx : ∀ x ∈ xs, x.length = bs) :
    ∀ y ∈ modeDecrypt m bs E D iv xs, y.length = bs := by
  rw [modeDecrypt_eq_chain]
  exact chain_blocks (fun j _ _ _ => decryptStep_block m hE hD hiv j) hiv List.length_replicate hx

theorem decryptStep_encryptStep (m : Mode) {cipher : BlockCipher} (h : cipher.Lawful bs) (hiv : iv.length = bs) (j : Nat)
    (hp : p.length = bs) (hc : c.length = bs) (hx : x.length = bs) :
    decryptStep m cipher.enc cipher.dec iv j c p (encryptStep m cipher.enc iv j p c x) = x := by
  cases m with
  | ecb => exact h.dec_enc x hx
  | cbc => rw [decryptStep, encryptStep, h.dec_enc _ (xorb_block hx hc), xorb_xorb_cancel_right hx hc]
  | pcbc =>
    have hxc := xorb_block hx hc
    rw [decryptStep, encryptStep, h.dec_enc _ (xorb_block hxc hp), xorb_right_comm, xorb_xorb_cancel_right hxc hp,
      xorb_xorb_cancel_right hx hc]
  | cfb => exact xorb_xorb_cancel_right hx (h.enc_length c hc)
  | ofb => exact xorb_xorb_cancel_right hx (iterate_block h.enc_length hiv _)
  | ctr => exact xorb_xorb_cancel_right hx (h.enc_length _ ((ctrAdd_length iv j).trans hiv))

/-- Decryption undoes encryption in every mode, block by block (R268). -/
theorem modeDecrypt_modeEncrypt (m : Mode) {cipher : BlockCipher} (h : cipher.Lawful bs) (hiv : iv.length = bs)
    (hx : ∀ x ∈ xs, x.length = bs) :
    modeDecrypt m bs cipher.enc cipher.dec iv (modeEncrypt m bs cipher.enc iv xs) = xs := by
  rw [modeEncrypt_eq_chain, modeDecrypt_eq_chain]
  exact chain_chain (fun j _ _ _ => encryptStep_block m h.enc_length hiv j)
    (fun j _ _ _ => decryptStep_encryptStep m h hiv j) List.length_replicate hiv hx

end Sys2Proof.Machine
end

section
/-! # What changing one ciphertext block does (46_modes R269)

A decrypted block is one `decryptStep` of its own ciphertext block and of the blocks before it, so it changes only where one
of these does. -/

namespace Sys2Proof.Machine

variable {m : Mode} {bs i j : Nat} {a b c' k iv : Bytes} {cs : List Bytes} {E D : Bytes → Bytes}

/-! ## Blocks that do not change -/

theorem modeDecrypt_getD_of_le (m : Mode) (bs : Nat) (E D : Bytes → Bytes) (iv : Bytes) (h : cs.length ≤ i) :
    (modeDecrypt m bs E D iv cs).getD i [] = [] :=
  List.getD_eq_default _ _ (by rwa [modeDecrypt_length])

theorem set_getD_ne (cs : List Bytes) (c' : Bytes) (h : i ≠ j) : (cs.set j c').getD i [] = cs.getD i [] := by
  simp [List.getD_eq_getElem?_getD, List.getElem?_set_ne h.symm]

theorem set_getD_self (c' : Bytes) (h : j < cs.length) : (cs.set j c').getD j [] = c' := by
  simp [h]

/-- A step depends on the block before it under CBC, PCBC and CFB only. -/
theorem decryptStep_congr {u u' v v' x : Bytes} (hm : m ≠ .pcbc) (hu : m = .cbc ∨ m = .cfb → u' = u) :
    decryptStep m E D iv j u' v' x = decryptStep m E D iv j u v x := by
  cases m with
  | pcbc => exact absurd rfl hm
  | cbc | cfb => rw [hu (by decide)]; rfl
  | ecb | ofb | ctr => rfl

/-- Apart from PCBC, only block `j` changes, and the block after it under CBC and CFB. -/
theorem modeDecrypt_set_getD_ne (hm : m ≠ .pcbc) (hne : i ≠ j) (hnext : m = .cbc ∨ m = .cfb → i ≠ j + 1) :
    (modeDecrypt m bs E D iv (cs.set j c')).getD i [] = (modeDecrypt m bs E D iv cs).getD i [] := by
  rcases Nat.lt_or_ge i cs.length with hi | hi
  · rw [modeDecrypt_getD m bs E D iv hi, modeDecrypt_getD m bs E D iv (by simpa using hi), set_getD_ne _ _ hne]
    refine decryptStep_congr hm fun hchained => ?_
    have hprev : i = 0 ∨ i - 1 ≠ j := by have := hnext hchained; omega
    rcases hprev with rfl | hprev
    · rfl
    · rw [set_getD_ne _ _ hprev]
  · rw [modeDecrypt_getD_of_le m bs E D iv hi, modeDecrypt_getD_of_le m bs E D iv (by simpa using hi)]

/-- In every mode, the blocks before block `j` keep their values. -/
theorem modeDecrypt_set_getD_lt (m : Mode) (bs : Nat) (E D : Bytes → Bytes) (iv : Bytes) (cs : List Bytes) (c' : Bytes)
    (h : i < j) : (modeDecrypt m bs E D iv (cs.set j c')).getD i [] = (modeDecrypt m bs E D iv cs).getD i [] := by
  have front : (modeDecrypt m bs E D iv (cs.set j c')).take j = (modeDecrypt m bs E D iv cs).take j := by
    rw [modeDecrypt_eq_chain, modeDecrypt_eq_chain, chain_take, chain_take, List.take_set_of_le (Nat.le_refl j)]
  rw [← getD_take_of_lt [] h, front, getD_take_of_lt [] h]

/-! ## Blocks that change -/

/-- Block `j` decrypts from its new ciphertext block and the old blocks before it. -/
theorem modeDecrypt_set_getD_self (m : Mode) (bs : Nat) (E D : Bytes → Bytes) (iv c' : Bytes) (h : j < cs.length) :
    (modeDecrypt m bs E D iv (cs.set j c')).getD j [] =
      decryptStep m E D iv j (if j = 0 then iv else cs.getD (j - 1) [])
        (if j = 0 then rep 0 bs else (modeDecrypt m bs E D iv cs).getD (j - 1) []) c' := by
  rw [modeDecrypt_getD m bs E D iv (by simpa using h), set_getD_self c' h]
  cases j with
  | zero => rfl
  | succ j => simp only [Nat.add_sub_cancel, set_getD_ne _ _ (Nat.ne_of_lt j.lt_succ_self),
      modeDecrypt_set_getD_lt m bs E D iv cs c' j.lt_succ_self]

theorem modeDecrypt_getD_succ (m : Mode) (bs : Nat) (E D : Bytes → Bytes) (iv : Bytes) (h : j + 1 < cs.length) :
    (modeDecrypt m bs E D iv cs).getD (j + 1) [] =
      decryptStep m E D iv (j + 1) (cs.getD j []) ((modeDecrypt m bs E D iv cs).getD j []) (cs.getD (j + 1) []) :=
  modeDecrypt_getD m bs E D iv h

/-- The block after block `j` decrypts from its own ciphertext block, the new block `j` and what that decrypts to. -/
theorem modeDecrypt_set_getD_succ (m : Mode) (bs : Nat) (E D : Bytes → Bytes) (iv c' : Bytes) (h : j + 1 < cs.length) :
    (modeDecrypt m bs E D iv (cs.set j c')).getD (j + 1) [] =
      decryptStep m E D iv (j + 1) c' ((modeDecrypt m bs E D iv (cs.set j c')).getD j []) (cs.getD (j + 1) []) := by
  rw [modeDecrypt_getD_succ m bs E D iv (by simpa using h), set_getD_ne _ _ (Nat.ne_of_gt j.lt_succ_self),
    set_getD_self c' (Nat.lt_of_succ_lt h)]

/-! ## Differences of blocks -/

theorem xorb_xorb_xorb_comm (a b c d : Bytes) : xorb (xorb a b) (xorb c d) = xorb (xorb a c) (xorb b d) := by
  rw [xorb_assoc, ← xorb_assoc b, xorb_comm b c, xorb_assoc c, ← xorb_assoc]

/-- A block that stands in both strings is gone from their difference. -/
theorem xorb_common (ha : a.length = bs) (hb : b.length = bs) (hk : k.length = bs) :
    xorb (xorb a k) (xorb b k) = xorb a b := by
  rw [xorb_xorb_xorb_comm, ← xorb_assoc, xorb_xorb_cancel_right (xorb_block ha hb) hk]

theorem xorb_common_left (ha : a.length = bs) (hb : b.length = bs) (hk : k.length = bs) :
    xorb (xorb k a) (xorb k b) = xorb a b := by
  rw [xorb_comm k, xorb_comm k, xorb_common ha hb hk]

/-- Adding the difference of `a` and `b` turns the one into the other, under any key string `k`. -/
theorem xorb_flips (ha : a.length = bs) (hb : b.length = bs) (hk : k.length = bs) :
    xorb b k = xorb (xorb a k) (xorb a b) := by
  rw [xorb_common_left hk hb ha, xorb_comm]

theorem getD_block (hcs : ∀ c ∈ cs, c.length = bs) (h : j < cs.length) : (cs.getD j []).length = bs := by
  rw [List.getD_eq_getElem _ _ h]
  exact hcs _ (List.getElem_mem h)

theorem previous_block (hiv : iv.length = bs) (hcs : ∀ c ∈ cs, c.length = bs) (h : j < cs.length) :
    (if j = 0 then iv else cs.getD (j - 1) []).length = bs := by
  split
  · exact hiv
  · exact getD_block hcs (by omega)

/-- Under CFB, OFB and CTR a step adds to its block a string that does not depend on the block. -/
theorem decryptStep_flips {u v : Bytes} (hm : m = .cfb ∨ m = .ofb ∨ m = .ctr) (hE : ∀ b, b.length = bs → (E b).length = bs)
    (hiv : iv.length = bs) (hu : u.length = bs) (ha : a.length = bs) (hb : b.length = bs) :
    decryptStep m E D iv j u v b = xorb (decryptStep m E D iv j u v a) (xorb a b) := by
  rcases hm with rfl | rfl | rfl
  · exact xorb_flips ha hb (hE _ hu)
  · exact xorb_flips ha hb (iterate_block hE hiv _)
  · exact xorb_flips ha hb (hE _ ((ctrAdd_length iv j).trans hiv))

theorem stream_set_getD_self (hm : m = .cfb ∨ m = .ofb ∨ m = .ctr) (hE : ∀ b, b.length = bs → (E b).length = bs)
    (hiv : iv.length = bs) (hc' : c'.length = bs) (hcs : ∀ c ∈ cs, c.length = bs) (h : j < cs.length) :
    (modeDecrypt m bs E D iv (cs.set j c')).getD j [] =
      xorb ((modeDecrypt m bs E D iv cs).getD j []) (xorb (cs.getD j []) c') := by
  rw [modeDecrypt_set_getD_self m bs E D iv c' h, modeDecrypt_getD m bs E D iv h]
  exact decryptStep_flips hm hE hiv (previous_block hiv hcs h) (getD_block hcs h) hc'

theorem cbc_set_getD_succ (hD : ∀ b, b.length = bs → (D b).length = bs) (hc' : c'.length = bs)
    (hcs : ∀ c ∈ cs, c.length = bs) (h : j + 1 < cs.length) :
    (modeDecrypt .cbc bs E D iv (cs.set j c')).getD (j + 1) [] =
      xorb ((modeDecrypt .cbc bs E D iv cs).getD (j + 1) []) (xorb (cs.getD j []) c') := by
  rw [modeDecrypt_set_getD_succ .cbc bs E D iv c' h, modeDecrypt_getD_succ .cbc bs E D iv h, decryptStep, decryptStep,
    xorb_comm _ c', xorb_comm _ (cs.getD j []), xorb_flips (getD_block hcs (Nat.lt_of_succ_lt h)) hc' (hD _ (getD_block hcs h))]

section Pcbc

variable (hE : ∀ b, b.length = bs → (E b).length = bs) (hD : ∀ b, b.length = bs → (D b).length = bs)
  (hiv : iv.length = bs) (hc' : c'.length = bs) (hcs : ∀ c ∈ cs, c.length = bs)

include hE hD hiv hcs

theorem modeDecrypt_getD_block (m : Mode) (h : j < cs.length) : ((modeDecrypt m bs E D iv cs).getD j []).length = bs :=
  getD_block (modeDecrypt_blocks m hE hD hiv hcs) (by rwa [modeDecrypt_length])

include hc'

/-- Under PCBC, the difference at block `j` is that of the two block decryptions. -/
theorem pcbc_difference_self (h : j < cs.length) :
    xorb ((modeDecrypt .pcbc bs E D iv (cs.set j c')).getD j []) ((modeDecrypt .pcbc bs E D iv cs).getD j []) =
      xorb (D c') (D (cs.getD j [])) := by
  have hprev := previous_block hiv hcs h
  have hplain := previous_block List.length_replicate (modeDecrypt_blocks .pcbc hE hD hiv hcs)
    (j := j) (iv := rep 0 bs) (by rwa [modeDecrypt_length])
  have hC := hD _ (getD_block hcs h)
  have hC' := hD _ hc'
  rw [modeDecrypt_set_getD_self .pcbc bs E D iv c' h, modeDecrypt_getD .pcbc bs E D iv h, decryptStep, decryptStep,
    xorb_common (xorb_block hC' hprev) (xorb_block hC hprev) hplain, xorb_common hC' hC hprev]

/-- Under PCBC, the difference at the next block is made of the differences of the two block decryptions and of the two
blocks; no later block changes it. -/
theorem pcbc_difference_later (hji : j < i) (hi : i < cs.length) :
    xorb ((modeDecrypt .pcbc bs E D iv (cs.set j c')).getD i []) ((modeDecrypt .pcbc bs E D iv cs).getD i []) =
      xorb (xorb (D (cs.getD j [])) (D c')) (xorb (cs.getD j []) c') := by
  induction i, hji using Nat.le_induction with
  | base =>
    have hj : j < cs.length := Nat.lt_of_succ_lt hi
    rw [modeDecrypt_set_getD_succ .pcbc bs E D iv c' hi, modeDecrypt_getD_succ .pcbc bs E D iv hi, decryptStep,
      decryptStep, xorb_xorb_xorb_comm, xorb_common_left hc' (getD_block hcs hj) (hD _ (getD_block hcs hi)),
      pcbc_difference_self hE hD hiv hc' hcs hj, xorb_comm c', xorb_comm (D c'), xorb_comm]
  | succ i hji ih =>
    have hi' : i < cs.length := Nat.lt_of_succ_lt hi
    have hlen := List.length_set (as := cs) (i := j) (a := c')
    have hset : ∀ c ∈ cs.set j c', c.length = bs := fun c hc => (List.mem_or_eq_of_mem_set hc).elim (hcs c) (· ▸ hc')
    rw [← ih hi', modeDecrypt_getD_succ .pcbc bs E D iv hi, modeDecrypt_getD_succ .pcbc bs E D iv (hlen ▸ hi),
      decryptStep, decryptStep, set_getD_ne _ _ (Nat.ne_of_gt hji), set_getD_ne _ _ (by omega),
      xorb_common_left (modeDecrypt_getD_block hE hD hiv hset .pcbc (hlen ▸ hi'))
        (modeDecrypt_getD_block hE hD hiv hcs .pcbc hi')
        (xorb_block (hD _ (getD_block hcs hi)) (getD_block hcs hi'))]

end Pcbc

/-- Settles O56: mode by mode, from the one step that decrypts a block. -/
theorem changedBlockPropagatesAsTheRulesSay : Obligations.ChangedBlockPropagatesAsTheRulesSay := by
  intro bs E D iv c' cs j hED hiv hc' hcs hj P P' C flips delta
  have hE b hb := (hED b hb).1
  have hD b hb := (hED b hb).2
  have hself (m : Mode) := modeDecrypt_set_getD_self m bs E D iv c' hj
  have hflips {m : Mode} (hm : m = .cfb ∨ m = .ofb ∨ m = .ctr) : P' m j = xorb (P m j) flips :=
    stream_set_getD_self hm hE hiv hc' hcs hj
  refine ⟨⟨?ecb, hself .ecb⟩, ⟨?cbc, hself .cbc, cbc_set_getD_succ hD hc' hcs⟩, ⟨?pcbc, hself .pcbc, ?pcbcLater⟩,
    ⟨?cfb, hflips (by decide), modeDecrypt_set_getD_succ .cfb bs E D iv c'⟩, ⟨?ofb, hflips (by decide)⟩,
    ⟨?ctr, hflips (by decide)⟩⟩
  case ecb | ofb | ctr => exact fun i hi => modeDecrypt_set_getD_ne (by decide) hi (by simp)
  case cbc | cfb => exact fun i hi hnext => modeDecrypt_set_getD_ne (by decide) hi fun _ => hnext
  case pcbc => exact fun i hi => modeDecrypt_set_getD_lt .pcbc bs E D iv cs c' hi
  case pcbcLater => exact fun i => pcbc_difference_later hE hD hiv hc' hcs

end Sys2Proof.Machine
end

section
/-! # The message commands (46_modes R250 to R252, R268)

ENCM pads, splits, chains and joins; DECM does the same backwards. The lengths and the round trip of a message follow from
those of the padding schemes and of the chains. -/

namespace Sys2Proof.Machine

variable {s t : State} {a : Alg} {bs : Nat} {cipher : BlockCipher} {m : Mode} {p : Padding} {v filler msg x : Bytes}
  {xs : List Bytes}

/-! ## The commands on a ready engine -/

theorem exec_encm_of_ready (h : MessageReady s a bs cipher m p v) :
    exec .encm s = .next ((s.advanceDraws (padDraws p (padLength bs s.input.length))).succeed
      (encryptMessage m p bs cipher v (s.drawn (padDraws p (padLength bs s.input.length))) s.input)) := by
  have ⟨⟨⟨hc, ha, hbs⟩, hn, hk⟩, hm, hp, _, _⟩ := h
  rw [exec, execEncm, whenConfigured_of hc ha, withBlockSize_of hbs, whenInited_of hn, withMode_of hm, whenIvReady_of h,
    withCipher_of hk, withPadding_of hp]

theorem exec_decm_of_ready (h : MessageReady s a bs cipher m p v) (whole : s.input.length % bs = 0)
    (hd : decryptMessage m p bs cipher v s.input = some msg) : exec .decm s = .next (s.succeed msg) := by
  have ⟨⟨⟨hc, ha, hbs⟩, hn, hk⟩, hm, hp, _, _⟩ := h
  rw [exec, execDecm, whenConfigured_of hc ha, withBlockSize_of hbs, whole, beq_self_eq_true, require_true,
    whenInited_of hn, withMode_of hm, whenIvReady_of h, withCipher_of hk, withPadding_of hp, hd]

/-- Settles O23: the filler is what RNG supplies next. -/
theorem encmCompletes : Obligations.EncmCompletes := fun s _ _ _ _ _ _ h =>
  ⟨s.drawn _, drawn_length _ s, exec_encm_of_ready h⟩

/-- Settles O24. -/
theorem decmCompletes : Obligations.DecmCompletes := fun _ _ _ _ _ _ _ _ h => exec_decm_of_ready h

/-! ## Whole blocks (R253) -/

theorem toBlocks_spec (hbs : 1 ≤ bs) (whole : x.length % bs = 0) :
    (toBlocks bs x).flatten = x ∧ ∀ b ∈ toBlocks bs x, b.length = bs := by
  have hlen : x.length = bs * (x.length / bs) := (Nat.mul_div_cancel' (Nat.dvd_of_mod_eq_zero whole)).symm
  obtain ⟨hjoin, -, hblocks⟩ := splitBlocks_spec hbs (x.length / bs) x hlen
  exact ⟨hjoin, hblocks⟩

theorem flatten_blocks_length (h : ∀ b ∈ xs, b.length = bs) : xs.flatten.length = bs * xs.length := by
  induction xs with
  | nil => rfl
  | cons x xs ih =>
    obtain ⟨hx, hxs⟩ := List.forall_mem_cons.1 h
    rw [List.flatten_cons, List.length_append, hx, ih hxs, List.length_cons, Nat.mul_succ, Nat.add_comm]

theorem splitBlocks_flatten (h : ∀ b ∈ xs, b.length = bs) : splitBlocks bs xs.length xs.flatten = xs := by
  induction xs with
  | nil => rfl
  | cons x xs ih =>
    obtain ⟨rfl, hxs⟩ := List.forall_mem_cons.1 h
    rw [List.length_cons, splitBlocks, List.flatten_cons, List.take_left, List.drop_left, ih hxs]

/-- Blocks that were joined are split again. -/
theorem toBlocks_flatten (hbs : 1 ≤ bs) (h : ∀ b ∈ xs, b.length = bs) : toBlocks bs xs.flatten = xs := by
  rw [toBlocks, flatten_blocks_length h, Nat.mul_div_cancel_left _ hbs, splitBlocks_flatten h]

theorem padMessage_length (p : Padding) (hbs : 1 ≤ bs) (hf : filler.length = padDraws p (padLength bs msg.length)) :
    (padMessage p bs filler msg).length = bs * (msg.length / bs + 1) := by
  rw [padMessage, List.length_append, padBytes_length (padLength_pos hbs _) hf, add_padLength hbs]

theorem unpadMessage_padMessage (hbs : 1 ≤ bs) (hle : bs ≤ 255) (hrev : PaddingReversible p msg)
    (hf : filler.length = padDraws p (padLength bs msg.length)) :
    unpadMessage p bs (padMessage p bs filler msg) = some msg := by
  by_cases hp : p = .zeros
  · subst hp
    exact (zerosPaddingStripsTrailingZeros.2 bs filler msg).2 (hrev rfl)
  · exact countedPaddingRoundTrips p bs filler msg hp hbs hle hf

/-! ## What a coherent engine that is ready promises -/

theorem algBlockSize_bounds (h : algBlockSize a = some bs) : 1 ≤ bs ∧ bs ≤ 255 := by
  cases a with
  | mars => cases h; decide
  | external c =>
    obtain ⟨y, -, rfl⟩ := Option.map_eq_some_iff.1 h
    exact ⟨y.bs_pos, y.bs_le⟩

/-- The IV of a ready engine is a block, or the mode is ECB, which does not look at it (R254). -/
theorem MessageReady.iv_length (h : MessageReady s a bs cipher m p v) (hs : Coherent s) : m ≠ .ecb → v.length = bs :=
  fun hm => hs.iv.iv_length v a bs (h.iv hm).2 h.keyed.configured.alg h.keyed.configured.blockSize

theorem messageReady_of_sameRegisters (h : MessageReady s a bs cipher m p v) (hst : SameRegisters s t) :
    MessageReady t a bs cipher m p v := by
  obtain ⟨hkeyed, hm, hp, hiv, hno⟩ := h
  refine ⟨keyed_of_sameRegisters hkeyed hst, hst.mode.trans hm, hst.pad.trans hp, fun hne => ?_, hno⟩
  rw [hst.ivv, hst.iv]
  exact hiv hne

/-- The chains do what they do from a block: under ECB any block can stand for the IV. -/
theorem exists_block_iv (hv : m ≠ .ecb → v.length = bs) : ∃ iv : Bytes, iv.length = bs ∧
    (∀ E xs, modeEncrypt m bs E v xs = modeEncrypt m bs E iv xs) ∧
    ∀ E D xs, modeDecrypt m bs E D v xs = modeDecrypt m bs E D iv xs := by
  by_cases hm : m = .ecb
  · subst hm
    exact ⟨rep 0 bs, List.length_replicate, fun _ _ => rfl, fun _ _ _ => rfl⟩
  · exact ⟨v, hv hm, fun _ _ => rfl, fun _ _ _ => rfl⟩

/-! ## Length and round trip of a message -/

section Message

variable (hbs : 1 ≤ bs) (hcipher : cipher.Lawful bs) (hv : m ≠ .ecb → v.length = bs)
  (hf : filler.length = padDraws p (padLength bs msg.length))

include hbs hcipher hv hf

theorem encryptMessage_length :
    (encryptMessage m p bs cipher v filler msg).length = bs * (msg.length / bs + 1) := by
  obtain ⟨iv, hiv, henc, -⟩ := exists_block_iv hv
  have hlen := padMessage_length p hbs hf
  obtain ⟨hjoin, hblocks⟩ := toBlocks_spec hbs (x := padMessage p bs filler msg) (by simp [hlen])
  rw [encryptMessage, henc, flatten_blocks_length (modeEncrypt_blocks m hcipher.enc_length hiv hblocks), modeEncrypt_length,
    ← flatten_blocks_length hblocks, hjoin, hlen]

theorem decryptMessage_encryptMessage (hle : bs ≤ 255) (hrev : PaddingReversible p msg) :
    decryptMessage m p bs cipher v (encryptMessage m p bs cipher v filler msg) = some msg := by
  obtain ⟨iv, hiv, henc, hdec⟩ := exists_block_iv hv
  obtain ⟨hjoin, hblocks⟩ := toBlocks_spec hbs (x := padMessage p bs filler msg) (by simp [padMessage_length p hbs hf])
  rw [decryptMessage, encryptMessage, henc, hdec, toBlocks_flatten hbs (modeEncrypt_blocks m hcipher.enc_length hiv hblocks),
    modeDecrypt_modeEncrypt m hcipher hiv hblocks, hjoin, unpadMessage_padMessage hbs hle hrev hf]

end Message

/-- Settles O57: the chains keep the number of blocks, so the ciphertext is as long as the padded message. -/
theorem ciphertextLengthIsTheNextMultiple : Obligations.CiphertextLengthIsTheNextMultiple := by
  intro s t a bs cipher m p v out hs h hexec hout
  obtain ⟨hbs, -⟩ := algBlockSize_bounds h.keyed.configured.blockSize
  rw [exec_encm_of_ready h] at hexec
  cases hexec
  cases hout
  rw [encryptMessage_length hbs (hs.lawful h.keyed) (h.iv_length hs) (drawn_length _ s)]
  refine ⟨?_, Nat.le_mul_of_pos_right bs (Nat.succ_pos _)⟩
  rw [← add_padLength hbs, padLength, Nat.add_sub_assoc (Nat.mod_lt _ hbs).le]

/-- Settles O58: ENCM keeps the registers, so DECM runs with the same cipher, mode, padding and IV. -/
theorem messageCommandsRoundTrip : Obligations.MessageCommandsRoundTrip := by
  intro s a bs cipher m p v hs h hrev
  obtain ⟨hbs, hle⟩ := algBlockSize_bounds h.keyed.configured.blockSize
  have hcipher := hs.lawful h.keyed
  have hv := h.iv_length hs
  have hf := drawn_length (padDraws p (padLength bs s.input.length)) s
  refine ⟨_, _, _, exec_encm_of_ready h, rfl, exec_decm_of_ready (msg := s.input)
    (messageReady_of_sameRegisters h ⟨rfl, rfl, rfl, rfl, rfl, rfl, rfl, rfl, rfl⟩) ?_ ?_, rfl⟩
  · show (encryptMessage m p bs cipher v _ s.input).length % bs = 0
    rw [encryptMessage_length hbs hcipher hv hf, Nat.mul_mod_right]
  · exact decryptMessage_encryptMessage hbs hcipher hv hf hle hrev

end Sys2Proof.Machine
end

section
/-! # What a response depends on (46_modes R270; 20_memory R60)

Two states that agree in the registers and the operand differ in the model's own count of draws, in the commands to come and in
the last response only. No guard looks at these, so the two states pass through every guard alike. -/

namespace Sys2Proof.Machine

variable {s s' : State} {r r' : Result} {i : Instr}

/-! ## The register updates keep two states alike -/

theorem SameRegisters.clear (s s' : State) : SameRegisters s.clear s'.clear :=
  ⟨rfl, rfl, rfl, rfl, rfl, rfl, rfl, rfl, rfl⟩

theorem SameRegisters.configure (s s' : State) (a : Alg) (m : Mode) (p : Padding) :
    SameRegisters (s.configure a m p) (s'.configure a m p) := ⟨rfl, rfl, rfl, rfl, rfl, rfl, rfl, rfl, rfl⟩

theorem SameRegisters.loadSubkeys (h : SameRegisters s s') (K : Subkeys) :
    SameRegisters (s.loadSubkeys K) (s'.loadSubkeys K) := { h with inited := rfl, k := rfl }

theorem SameRegisters.loadExternalKey (h : SameRegisters s s') (xk : Bytes) :
    SameRegisters (s.loadExternalKey xk) (s'.loadExternalKey xk) := { h with inited := rfl, xk := rfl }

theorem SameRegisters.loadIv (h : SameRegisters s s') (v : Bytes) : SameRegisters (s.loadIv v) (s'.loadIv v) :=
  { h with ivv := rfl, iv := rfl }

/-! ## Results that are alike -/

/-- Two results that, where both are next states, hold the same response and the same registers. -/
def AnswerAlike (r r' : Result) : Prop :=
  ∀ t t', r = .next t → r' = .next t' → t'.response = t.response ∧ SameRegisters t t'

/-- The two states agree in the registers and in the operand. -/
structure SameInputs (s s' : State) : Prop where
  registers : SameRegisters s s'
  input : s'.input = s.input

theorem answerAlike_respond {u u' : State} (h : SameRegisters u u') (st : Byte) (out : Bytes) :
    AnswerAlike (.next (u.respond st out)) (.next (u'.respond st out)) := by
  rintro _ _ ⟨⟩ ⟨⟩
  exact ⟨rfl, { h with }⟩

/-! ## The guards -/

theorem require_alike (hs : SameRegisters s s') (ok : Bool) (e : Error) (h : AnswerAlike r r') :
    AnswerAlike (require ok e s r) (require ok e s' r') := by
  cases ok with
  | false => exact answerAlike_respond hs e.code []
  | true => exact h

/-- Two reads of the same register go on with the same value. -/
theorem read_alike {α : Type} {o : Option α} {f f' : α → Result}
    (hr : ∀ t, r = .next t → ∃ a, o = some a ∧ f a = .next t) (hr' : ∀ t, r' = .next t → ∃ a, o = some a ∧ f' a = .next t)
    (h : ∀ a, o = some a → AnswerAlike (f a) (f' a)) : AnswerAlike r r' := by
  intro t t' ht ht'
  obtain ⟨a, ha, hf⟩ := hr t ht
  obtain ⟨a', ha', hf'⟩ := hr' t' ht'
  cases ha.symm.trans ha'
  exact h a ha t t' hf hf'

theorem whenNoOperand_alike (hs : SameInputs s s') (h : AnswerAlike r r') :
    AnswerAlike (whenNoOperand s r) (whenNoOperand s' r') := by
  rw [whenNoOperand, whenNoOperand, hs.input]
  exact require_alike hs.registers _ _ h

theorem whenConfigured_alike (hs : SameInputs s s') {f f' : Alg → Result} (h : ∀ a, AnswerAlike (f a) (f' a)) :
    AnswerAlike (whenConfigured s f) (whenConfigured s' f') := by
  rw [whenConfigured, whenConfigured, hs.registers.cfgd]
  exact require_alike hs.registers _ _ <| read_alike (fun _ => withAlg_eq_next.1)
    (fun _ => hs.registers.alg ▸ withAlg_eq_next.1) fun a _ => h a

theorem withExternal_alike {c : ExternalCipher} {f f' : ExtCipher → Result} (h : ∀ x, AnswerAlike (f x) (f' x)) :
    AnswerAlike (withExternal c f) (withExternal c f') :=
  read_alike (fun _ => withExternal_eq_next.1) (fun _ => withExternal_eq_next.1) fun x _ => h x

theorem withBlockSize_alike {a : Alg} {f f' : Nat → Result} (h : ∀ bs, AnswerAlike (f bs) (f' bs)) :
    AnswerAlike (withBlockSize a f) (withBlockSize a f') :=
  read_alike (fun _ => withBlockSize_eq_next.1) (fun _ => withBlockSize_eq_next.1) fun bs _ => h bs

theorem whenInited_alike (hs : SameInputs s s') (h : AnswerAlike r r') :
    AnswerAlike (whenInited s r) (whenInited s' r') := by
  rw [whenInited, whenInited, hs.registers.inited]
  exact require_alike hs.registers _ _ h

theorem keyedCipher_of_sameRegisters (hs : SameRegisters s s') (a : Alg) : keyedCipher s' a = keyedCipher s a := by
  simp only [keyedCipher, hs.k, hs.xk]

theorem withCipher_alike (hs : SameInputs s s') {a : Alg} {f f' : BlockCipher → Result}
    (h : ∀ cipher, AnswerAlike (f cipher) (f' cipher)) : AnswerAlike (withCipher s a f) (withCipher s' a f') :=
  read_alike (fun _ => withCipher_keyed.1) (fun _ => keyedCipher_of_sameRegisters hs.registers a ▸ withCipher_keyed.1)
    fun cipher _ => h cipher

theorem whenIvReady_alike (hs : SameInputs s s') (m : Mode) {f f' : Bytes → Result} (h : ∀ v, AnswerAlike (f v) (f' v)) :
    AnswerAlike (whenIvReady s m f) (whenIvReady s' m f') := by
  cases m with
  | ecb => exact h []
  | cbc | pcbc | cfb | ofb | ctr =>
    rw [whenIvReady, whenIvReady, hs.registers.ivv]
    exact require_alike hs.registers _ _ <|
      read_alike (fun _ => withIv_eq_next.1) (fun _ => hs.registers.iv ▸ withIv_eq_next.1) fun v _ => h v

/-- The checks and reads that ENCM and DECM share, from INITED on. -/
theorem messageGuards_alike (hs : SameInputs s s') {a : Alg} {f f' : Mode → Bytes → BlockCipher → Padding → Result}
    (h : ∀ m v cipher p, s.pad = some p → AnswerAlike (f m v cipher p) (f' m v cipher p)) :
    AnswerAlike
      (whenInited s <| withMode s fun m => whenIvReady s m fun v => withCipher s a fun cipher => withPadding s (f m v cipher))
      (whenInited s' <| withMode s' fun m =>
        whenIvReady s' m fun v => withCipher s' a fun cipher => withPadding s' (f' m v cipher)) :=
  whenInited_alike hs <| read_alike (fun _ => withMode_eq_next.1) (fun _ => hs.registers.mode ▸ withMode_eq_next.1) fun m _ =>
    whenIvReady_alike hs m fun v => withCipher_alike hs fun cipher =>
      read_alike (fun _ => withPadding_eq_next.1) (fun _ => hs.registers.pad ▸ withPadding_eq_next.1) (h m v cipher)

/-! ## The commands -/

theorem execInit_alike (hs : SameInputs s s') : AnswerAlike (execInit s) (execInit s') := by
  refine whenConfigured_alike hs fun a => ?_
  cases a with
  | mars =>
    rw [hs.input]
    exact require_alike hs.registers _ _ (answerAlike_respond (hs.registers.loadSubkeys _) okCode [])
  | external c =>
    rw [hs.input]
    exact withExternal_alike fun _ => require_alike hs.registers _ _ (answerAlike_respond (hs.registers.loadExternalKey _) okCode [])

theorem execSetiv_alike (hs : SameInputs s s') : AnswerAlike (execSetiv s) (execSetiv s') := by
  rw [execSetiv, execSetiv, hs.input]
  exact whenConfigured_alike hs fun _ => withBlockSize_alike fun _ =>
    require_alike hs.registers _ _ (answerAlike_respond (hs.registers.loadIv _) okCode [])

theorem blockCommand_alike (hs : SameInputs s s') (f : BlockCipher → Bytes → Bytes) :
    AnswerAlike (blockCommand f s) (blockCommand f s') := by
  rw [blockCommand, blockCommand, hs.input]
  exact whenConfigured_alike hs fun _ => withBlockSize_alike fun _ => require_alike hs.registers _ _ <|
    whenInited_alike hs <| withCipher_alike hs fun _ => answerAlike_respond hs.registers okCode _

theorem execRdkey_alike (hs : SameInputs s s') : AnswerAlike (execRdkey s) (execRdkey s') :=
  whenNoOperand_alike hs <| whenConfigured_alike hs fun _ => require_alike hs.registers _ _ <| whenInited_alike hs <|
    read_alike (fun _ => withSubkeys_eq_next.1) (fun _ => hs.registers.k ▸ withSubkeys_eq_next.1) fun _ _ =>
      answerAlike_respond hs.registers okCode _

/-- Without ISO_10126 there is no filler, so ENCM does not look at the count of draws. -/
theorem execEncm_alike (hs : SameInputs s s') (hd : drawsRandom s .encm = false) :
    AnswerAlike (execEncm s) (execEncm s') := by
  rw [execEncm, execEncm, hs.input]
  refine whenConfigured_alike hs fun a => withBlockSize_alike fun bs => messageGuards_alike hs fun m v cipher p hp => ?_
  have noDraws (n : Nat) : padDraws p n = 0 := by
    cases p with
    | iso10126 => simp [drawsRandom, hp] at hd
    | pkcs7 | ansiX923 | zeros => rfl
  rw [noDraws]
  exact answerAlike_respond { hs.registers with } okCode _

theorem execDecm_alike (hs : SameInputs s s') : AnswerAlike (execDecm s) (execDecm s') := by
  rw [execDecm, execDecm, hs.input]
  refine whenConfigured_alike hs fun a => withBlockSize_alike fun bs => require_alike hs.registers _ _ <|
    messageGuards_alike hs fun m v cipher p _ => ?_
  cases decryptMessage m p bs cipher v s.input with
  | none => exact answerAlike_respond hs.registers _ []
  | some msg => exact answerAlike_respond hs.registers okCode msg

theorem exec_alike (hs : SameInputs s s') (hd : drawsRandom s i = false) : AnswerAlike (exec i s) (exec i s') := by
  cases i with
  | reset => exact whenNoOperand_alike hs (answerAlike_respond (.clear s s') okCode [])
  | cfg alg mode pad =>
    refine whenNoOperand_alike hs ?_
    cases requestedConfig alg mode pad with
    | none => exact answerAlike_respond hs.registers _ []
    | some q => exact answerAlike_respond (.configure s s' q.1 q.2.1 q.2.2) okCode []
  | init => exact execInit_alike hs
  | setiv => exact execSetiv_alike hs
  | geniv => cases hd
  | blksz =>
    exact whenNoOperand_alike hs <| whenConfigured_alike hs fun _ => withBlockSize_alike fun _ =>
      answerAlike_respond hs.registers okCode _
  | rdkey => exact execRdkey_alike hs
  | encb => exact blockCommand_alike hs BlockCipher.enc
  | decb => exact blockCommand_alike hs BlockCipher.dec
  | encm => exact execEncm_alike hs hd
  | decm => exact execDecm_alike hs

/-- Settles O31: both runs take the same way through the guards. -/
theorem responsesDependOnRegistersAndOperandOnly : Obligations.ResponsesDependOnRegistersAndOperandOnly :=
  fun _ _ _ t t' hs hin hd => exec_alike ⟨hs, hin⟩ hd t t'

end Sys2Proof.Machine
end

section
/-! # Errors (60_exceptions R306 to R310)

Each command reports the first failing check of its own list, and the list is `orderedChecks` of R308 without the checks that
do not concern the command. `ReportsFirst` says so of any result; each guard of a coherent engine puts one check in front. -/

namespace Sys2Proof.Machine

variable {s t : State} {r : Result} {checks : List (Error × Bool)} {a : Alg} {bs : Nat} {e : Error} {i : Instr} {c : Command}
  {rest : List Command}

/-! ## The first error of a list of checks (R308) -/

/-- `r` is what a command answers in `s` whose checks, in their order, are `checks`: the first error that applies, or OK. -/
def ReportsFirst (s : State) (checks : List (Error × Bool)) (r : Result) : Prop :=
  match (checks.find? (·.2)).map (·.1) with
  | some e => r = .next (s.raise e)
  | none => ∃ t out, r = .next t ∧ t.response = some ⟨okCode, out⟩

theorem reportsFirst_succeed (s u : State) (out : Bytes) : ReportsFirst s [] (.next (u.succeed out)) := ⟨_, out, rfl, rfl⟩

theorem reportsFirst_fails (s : State) (e : Error) : ReportsFirst s ((e, true) :: checks) (.next (s.raise e)) := rfl

theorem reportsFirst_require {ok fails : Bool} (hf : fails = !ok) (h : ok = true → ReportsFirst s checks r) :
    ReportsFirst s ((e, fails) :: checks) (require ok e s r) := by
  subst hf
  cases ok with
  | false => exact reportsFirst_fails s e
  | true => exact h rfl

/-! ## The guards of a coherent engine -/

theorem whenNoOperand_reportsFirst (h : ReportsFirst s checks r) :
    ReportsFirst s ((.unsupportedConfiguration, !s.input.isEmpty) :: checks) (whenNoOperand s r) :=
  reportsFirst_require rfl fun _ => h

theorem whenConfigured_reportsFirst (hs : Coherent s) {f : Alg → Result}
    (h : ∀ a bs m p, s.alg = some a → algBlockSize a = some bs → s.mode = some m → s.pad = some p →
      ReportsFirst s checks (f a)) :
    ReportsFirst s ((.uninitializedCipher, !s.cfgd) :: checks) (whenConfigured s f) := by
  refine reportsFirst_require rfl fun hc => ?_
  obtain ⟨a, m, p, bs, ha, hm, hp, hbs⟩ := hs.configured hc
  simpa only [withAlg, ha] using h a bs m p ha hbs hm hp

theorem whenInited_reportsFirst (hs : Coherent s) (ha : s.alg = some a)
    (h : ∀ cipher, keyedCipher s a = some cipher → ReportsFirst s checks r) :
    ReportsFirst s ((.uninitializedCipher, !s.inited) :: checks) (whenInited s r) :=
  reportsFirst_require rfl fun hn => (hs.keyed hn ha).elim h

theorem whenIvReady_reportsFirst (hs : Coherent s) {m : Mode} (hm : s.mode = some m) {f : Bytes → Result}
    (h : ReportsFirst s checks (f (messageIv s))) :
    ReportsFirst s ((.uninitializedCipher, s.mode != some .ecb && !s.ivv) :: checks) (whenIvReady s m f) := by
  cases m with
  | ecb =>
    rw [messageIv, if_pos hm] at h
    rw [hm]
    exact h
  | cbc | pcbc | cfb | ofb | ctr =>
    refine reportsFirst_require (by rw [hm]; rfl) fun hv => ?_
    obtain ⟨v, hiv⟩ := hs.loadedIv hv
    simpa [messageIv, hm, withIv, hiv] using h

/-! ## The commands -/

theorem keyRefused_mars (ha : s.alg = some .mars) : keyRefused s = !marsKeyOk s.input := by rw [keyRefused, ha]

theorem keyRefused_external {c : ExternalCipher} {x : ExtCipher} (ha : s.alg = some (.external c))
    (hx : Config.ext c = some x) : keyRefused s = !x.keyOk s.input := by
  simp [keyRefused, ha, hx]

theorem stateBlockSize_of (ha : s.alg = some a) (hbs : algBlockSize a = some bs) : stateBlockSize s = some bs := by
  rw [stateBlockSize, ha, Option.bind_some, hbs]

theorem execCfg_reportsFirst (s : State) (alg mode pad : BitVec 4) :
    ReportsFirst s [(.unsupportedConfiguration, !s.input.isEmpty),
      (.unsupportedConfiguration, (requestedConfig alg mode pad).isNone)] (execCfg alg mode pad s) := by
  refine whenNoOperand_reportsFirst ?_
  cases requestedConfig alg mode pad with
  | none => exact reportsFirst_fails s _
  | some q => exact reportsFirst_succeed s (s.configure q.1 q.2.1 q.2.2) []

theorem execInit_reportsFirst (hs : Coherent s) :
    ReportsFirst s [(.uninitializedCipher, !s.cfgd), (.invalidKey, keyRefused s)] (execInit s) := by
  refine whenConfigured_reportsFirst hs fun a bs _ _ ha hbs _ _ => ?_
  cases a with
  | mars => exact reportsFirst_require (keyRefused_mars ha) fun _ => reportsFirst_succeed s _ []
  | external c =>
    obtain ⟨x, hx, -⟩ := Option.map_eq_some_iff.1 hbs
    simp only [withExternal_of hx]
    exact reportsFirst_require (keyRefused_external ha hx) fun _ => reportsFirst_succeed s _ []

theorem execSetiv_reportsFirst (hs : Coherent s) :
    ReportsFirst s [(.uninitializedCipher, !s.cfgd), (.invalidBlockSize, lengthRefused s .setiv)] (execSetiv s) := by
  refine whenConfigured_reportsFirst hs fun a bs _ _ ha hbs _ _ => ?_
  rw [withBlockSize_of hbs, lengthRefused, stateBlockSize_of ha hbs]
  exact reportsFirst_require rfl fun _ => reportsFirst_succeed s _ []

theorem execBlksz_reportsFirst (hs : Coherent s) :
    ReportsFirst s [(.unsupportedConfiguration, !s.input.isEmpty), (.uninitializedCipher, !s.cfgd)] (execBlksz s) := by
  refine whenNoOperand_reportsFirst (whenConfigured_reportsFirst hs fun a bs _ _ _ hbs _ _ => ?_)
  rw [withBlockSize_of hbs]
  exact reportsFirst_succeed s s _

theorem execRdkey_reportsFirst (hs : Coherent s) :
    ReportsFirst s [(.unsupportedConfiguration, !s.input.isEmpty), (.uninitializedCipher, !s.cfgd),
      (.unsupportedConfiguration, s.alg != some .mars), (.uninitializedCipher, !s.inited)] (execRdkey s) := by
  refine whenNoOperand_reportsFirst (whenConfigured_reportsFirst hs fun a _ _ _ ha _ _ _ => ?_)
  refine reportsFirst_require (by rw [ha]; rfl) fun hmars => ?_
  obtain rfl : a = .mars := beq_iff_eq.1 hmars
  refine whenInited_reportsFirst hs ha fun cipher hk => ?_
  obtain ⟨K, hK, -⟩ := Option.map_eq_some_iff.1 hk
  rw [withSubkeys_of hK]
  exact reportsFirst_succeed s s _

theorem blockCommand_reportsFirst (hs : Coherent s) (f : BlockCipher → Bytes → Bytes) :
    ReportsFirst s [(.uninitializedCipher, !s.cfgd), (.invalidBlockSize, lengthRefused s .encb),
      (.uninitializedCipher, !s.inited)] (blockCommand f s) := by
  refine whenConfigured_reportsFirst hs fun a bs _ _ ha hbs _ _ => ?_
  rw [withBlockSize_of hbs, lengthRefused, stateBlockSize_of ha hbs]
  refine reportsFirst_require rfl fun _ => whenInited_reportsFirst hs ha fun cipher hk => ?_
  rw [withCipher_of hk]
  exact reportsFirst_succeed s s _

theorem execEncm_reportsFirst (hs : Coherent s) :
    ReportsFirst s [(.uninitializedCipher, !s.cfgd), (.uninitializedCipher, !s.inited),
      (.uninitializedCipher, ivMissing s .encm)] (execEncm s) := by
  refine whenConfigured_reportsFirst hs fun a bs m p ha hbs hm hp => ?_
  rw [withBlockSize_of hbs]
  refine whenInited_reportsFirst hs ha fun cipher hk => ?_
  rw [withMode_of hm]
  refine whenIvReady_reportsFirst hs hm ?_
  rw [withCipher_of hk, withPadding_of hp]
  exact reportsFirst_succeed s _ _

theorem execDecm_reportsFirst (hs : Coherent s) :
    ReportsFirst s [(.uninitializedCipher, !s.cfgd), (.invalidBlockSize, lengthRefused s .decm),
      (.uninitializedCipher, !s.inited), (.uninitializedCipher, ivMissing s .decm), (.padding, paddingRefused s .decm)]
      (execDecm s) := by
  refine whenConfigured_reportsFirst hs fun a bs m p ha hbs hm hp => ?_
  rw [withBlockSize_of hbs, lengthRefused, stateBlockSize_of ha hbs]
  refine reportsFirst_require rfl fun _ => whenInited_reportsFirst hs ha fun cipher hk => ?_
  rw [withMode_of hm]
  refine whenIvReady_reportsFirst hs hm ?_
  rw [withCipher_of hk, withPadding_of hp]
  have refused : paddingRefused s .decm = (decryptMessage m p bs cipher (messageIv s) s.input).isNone := by
    simp only [paddingRefused, ha, hm, hp, hbs, hk]
  rw [refused]
  cases decryptMessage m p bs cipher (messageIv s) s.input with
  | none => exact reportsFirst_fails s .padding
  | some msg => exact reportsFirst_succeed s s msg

/-- The nine checks of R308, of which those that do not concern the command never apply. -/
theorem exec_reportsFirst (hs : Coherent s) (i : Instr) : ReportsFirst s (orderedChecks s i) (exec i s) := by
  cases i with
  | reset => exact whenNoOperand_reportsFirst (reportsFirst_succeed s _ _)
  | cfg alg mode pad => exact execCfg_reportsFirst s alg mode pad
  | init => exact execInit_reportsFirst hs
  | setiv => exact execSetiv_reportsFirst hs
  | geniv => exact whenNoOperand_reportsFirst (reportsFirst_succeed s _ _)
  | blksz => exact execBlksz_reportsFirst hs
  | rdkey => exact execRdkey_reportsFirst hs
  | encb | decb => exact blockCommand_reportsFirst hs _
  | encm => exact execEncm_reportsFirst hs
  | decm => exact execDecm_reportsFirst hs

theorem exec_of_firstError (hs : Coherent s) (h : firstError s i = some e) : exec i s = .next (s.raise e) := by
  have reports := exec_reportsFirst hs i
  rwa [ReportsFirst, ← firstError, h] at reports

theorem exec_of_no_error (hs : Coherent s) (h : firstError s i = none) :
    ∃ t out, exec i s = .next t ∧ t.response = some ⟨okCode, out⟩ := by
  have reports := exec_reportsFirst hs i
  rwa [ReportsFirst, ← firstError, h] at reports

/-- Settles O25: the word checks are the decoder's, and the command reports the first of the others. -/
theorem firstErrorInOrder : Obligations.FirstErrorInOrder := by
  intro s c rest hs hcs
  cases hd : decodeWord c.word with
  | error => exact ⟨_, step_undecodable hcs hd, answers_raise _ _⟩
  | ok i =>
    have accepted := coherent_accept hs c rest
    rw [step_decoded hcs hd]
    cases he : firstError (s.accept c rest) i with
    | none => simpa only [he] using exec_of_no_error accepted he
    | some e => simpa only [he] using ⟨_, exec_of_firstError accepted he, answers_raise _ e⟩

/-! ## An error changes nothing (R306, R310) -/

/-- A step that does not answer OK raised an error on the accepted state. -/
theorem step_failed {r : Response} (hcs : s.commands = c :: rest) (h : step s = .next t) (hr : t.response = some r)
    (hst : r.st ≠ okCode) : ∃ e : Error, t = (s.accept c rest).raise e ∧ r = ⟨e.code, []⟩ := by
  rcases step_next hcs h with ⟨e, rfl⟩ | ⟨out, ok, -, -⟩
  · exact ⟨e, rfl, (Option.some.inj hr).symm⟩
  · cases ok.symm.trans hr
    exact absurd rfl hst

/-- Settles O26. -/
theorem errorsChangeNothing : Obligations.ErrorsChangeNothing := by
  intro s t c rest r hcs h hr hst
  obtain ⟨e, rfl, rfl⟩ := step_failed hcs h hr hst
  exact ⟨⟨e, rfl⟩, answers_raise _ e⟩

/-- After an error, taking the command again gives the state in which it failed, up to the last response, which no command
looks at. -/
theorem step_issueFirst_raise (hcs : s.commands = c :: rest) (e : Error) :
    step (((s.accept c rest).raise e).issueFirst c) = step s := by
  have again : (((s.accept c rest).raise e).issueFirst c).commands = c :: rest := rfl
  cases hd : decodeWord c.word with
  | error => rw [step_undecodable again hd, step_undecodable hcs hd]; rfl
  | ok i =>
    rw [step_decoded again hd, step_decoded hcs hd]
    exact exec_response_irrelevant i (s.accept c rest) (some ⟨e.code, []⟩)

/-- Settles O27. -/
theorem failedCommandsFailAgain : Obligations.FailedCommandsFailAgain := by
  intro s t c rest r hcs h hr hst
  obtain ⟨e, rfl, -⟩ := step_failed hcs h hr hst
  exact (step_issueFirst_raise hcs e).trans h

/-! ## The table of errors (R307) -/

/-- A MARS engine under ECB and PKCS7, with no key. -/
def State.marsConfigured : State := State.reset.configure .mars .ecb .pkcs7

/-- A state in which every command that can raise the error raises it: an operand where there must be none, no configuration, an
operand of one byte for a key or a block, an empty ciphertext. -/
def raisingState : Error → State
  | .unsupportedConfiguration => State.reset.accept ⟨0, [0]⟩ []
  | .uninitializedCipher => State.reset
  | .invalidKey | .invalidBlockSize => State.marsConfigured.accept ⟨0, [0]⟩ []
  | .padding => State.marsConfigured.loadSubkeys (marsExpand (rep 0 16))

theorem coherent_raisingState (e : Error) : Coherent (raisingState e) := by
  have configured : Coherent State.marsConfigured := coherent_configure coherent_reset .ecb .pkcs7 rfl
  cases e with
  | unsupportedConfiguration => exact coherent_accept coherent_reset _ _
  | uninitializedCipher => exact coherent_reset
  | invalidKey | invalidBlockSize => exact coherent_accept configured _ _
  | padding => exact coherent_loadSubkeys configured rfl rfl rfl

theorem firstError_raisingState (h : e ∈ canRaise i) : firstError (raisingState e) i = some e := by
  cases i with
  | reset | cfg | geniv | encm =>
    obtain rfl := List.mem_singleton.1 h
    rfl
  | init | setiv | blksz | rdkey | encb | decb =>
    obtain rfl | rfl := List.mem_pair.1 h
    · rfl
    · rfl
  | decm =>
    obtain rfl | h := List.mem_cons.1 h
    · rfl
    · obtain rfl | rfl := List.mem_pair.1 h
      · rfl
      · rfl

/-- Settles O28: the first clause by what any command can answer, the second by one state for each error. -/
theorem errorTableIsExact : Obligations.ErrorTableIsExact := by
  refine ⟨fun i s t r h hr => ?_, fun i e he => ?_⟩
  · rcases exec_next h with ⟨e, he, rfl⟩ | ⟨out, ok, -, -⟩
    · cases hr
      exact .inr ⟨e, he, rfl⟩
    · cases ok.symm.trans hr
      exact .inl rfl
  · have hs := coherent_raisingState e
    exact ⟨_, _, hs, exec_of_firstError hs (firstError_raisingState he), answers_raise _ e⟩

end Sys2Proof.Machine
end

section
/-! # Making an engine ready (70_reset_and_hazards R331; 30_encoding R88)

Each command of a construction is one step with a named next state. The two orders of INIT and SETIV, the software construction
and the IV helper chain these steps, and one lemma says when the engine at the end of a chain is ready. -/

namespace Sys2Proof.Machine

variable {s t u : State} {a : Alg} {m : Mode} {p : Padding} {i : Instr} {key v out : Bytes} {cs rest : List Command}

/-! ## One step per command -/

theorem step_commandOf (h : s.commands = commandOf i v :: rest) : step s = exec i (s.accept (commandOf i v) rest) :=
  step_decoded h (decodeWord_encode i)

theorem modeOfCode_modeCode (m : Mode) : modeOfCode (modeCode m) = some m := by cases m <;> rfl

theorem padOfCode_padCode (p : Padding) : padOfCode (padCode p) = some p := by cases p <;> rfl

theorem step_cfg_mars (h : s.commands = commandOf (configOf .mars (.chained m) p) [] :: rest) :
    step s = .next (((s.accept (commandOf (configOf .mars (.chained m) p) []) rest).configure .mars m p).succeed []) :=
  (step_commandOf h).trans
    (cfgCompletes _ _ _ _ .mars m p rfl rfl (modeOfCode_modeCode m) (padOfCode_padCode p) rfl)

theorem step_init_mars (h : s.commands = commandOf .init key :: rest) (hs : Configured s .mars 16)
    (hkey : marsKeyOk key = true) :
    step s = .next (((s.accept (commandOf .init key) rest).loadSubkeys (marsExpand key)).succeed []) :=
  (step_commandOf h).trans ((initCompletes (s.accept _ rest) .mars hs.cfgd hs.alg).1 rfl hkey)

theorem step_setiv (h : s.commands = commandOf .setiv v :: rest) (hs : Configured s a v.length) :
    step s = .next (((s.accept (commandOf .setiv v) rest).loadIv v).succeed []) :=
  (step_commandOf h).trans (setivCompletes _ a v.length ⟨hs.cfgd, hs.alg, hs.blockSize⟩ rfl)

theorem step_geniv {n : BitVec 12} (h : s.commands = commandOf (.geniv n) [] :: rest) :
    step s = .next (((s.accept (commandOf (.geniv n) []) rest).advanceDraws n.toNat).succeed (s.drawn n.toNat)) :=
  (step_commandOf h).trans (whenNoOperand_of (s := s.accept (commandOf (.geniv n) []) rest) rfl)

/-! ## A MARS engine with its key and IV -/

theorem configured_mars {iv : Bytes} (hc : s.cfgd = true) (ha : s.alg = some .mars) (hiv : iv.length = 16) :
    Configured s .mars iv.length :=
  ⟨hc, ha, by rw [hiv]; rfl⟩

/-- With the key, and the IV where the mode reads one, a configured MARS engine is ready; ECB looks at no IV (R254, R331). -/
theorem messageReady_mars {K : Subkeys} (hs : Configured s .mars 16) (hn : s.inited = true) (hk : s.k = some K)
    (hm : s.mode = some m) (hp : s.pad = some p) (hv : m ≠ .ecb → s.ivv = true ∧ s.iv = some v) :
    MessageReady s .mars 16 (marsCipher K) m p (if m = .ecb then [] else v) where
  keyed := ⟨hs, hn, by rw [keyedCipher, hk, Option.map_some]⟩
  mode := hm
  pad := hp
  iv := fun h => by rw [if_neg h]; exact hv h
  noIv := fun h => if_pos h

/-! ## The commands in the host's list -/

theorem run_of_step {n : Nat} (h : step s = .next u) (hr : Sys2Proof.core.run n u = .next t) :
    Sys2Proof.core.run (n + 1) s = .next t :=
  run_succ_eq_next.2 ⟨u, h, hr⟩

/-- CFG, then INIT and SETIV in either order (R331). -/
theorem run_initialisation {iv : Bytes} {keyAndIv : List Command}
    (horder : keyAndIv = [commandOf .init key, commandOf .setiv iv] ∨ keyAndIv = [commandOf .setiv iv, commandOf .init key])
    (hcs : s.commands = commandOf (configOf .mars (.chained m) p) [] :: (keyAndIv ++ rest))
    (hkey : marsKeyOk key = true) (hiv : iv.length = 16) :
    ∃ t, Sys2Proof.core.run 3 s = .next t ∧ t.commands = rest ∧
      MessageReady t .mars 16 (marsCipher (marsExpand key)) m p (if m = .ecb then [] else iv) := by
  rcases horder with rfl | rfl
  · refine ⟨_, run_of_step (step_cfg_mars hcs) (run_of_step (step_init_mars rfl ?_ hkey)
      (run_of_step (step_setiv rfl (configured_mars ?_ ?_ hiv)) rfl)), rfl,
      messageReady_mars ⟨rfl, rfl, rfl⟩ rfl rfl rfl rfl fun _ => ⟨rfl, rfl⟩⟩
    exacts [⟨rfl, rfl, rfl⟩, rfl, rfl]
  · refine ⟨_, run_of_step (step_cfg_mars hcs) (run_of_step (step_setiv rfl (configured_mars ?_ ?_ hiv))
      (run_of_step (step_init_mars rfl ?_ hkey) rfl)), rfl,
      messageReady_mars ⟨rfl, rfl, rfl⟩ rfl rfl rfl rfl fun _ => ⟨rfl, rfl⟩⟩
    exacts [rfl, rfl, ⟨rfl, rfl, rfl⟩]

/-! ## Software calls -/

/-- A call with nothing to follow its first commands ends where they end. -/
theorem runCall_of_noFollowing {call : SoftwareCall} (hc : softwareCommands call = .ok cs)
    (h : runCommands cs s = .next (u.succeed out)) (hf : followingCommands call out = []) :
    runCall call s = .ok (.next (u.succeed out)) := by
  rw [runCall_eq hc h (result_succeed u out), hf, runCommands_nil]

theorem runCommands_of_step {c : Command} (h : step (s.issueFirst c) = .next (u.succeed out)) :
    runCommands (c :: cs) s = runCommands cs (u.succeed out) :=
  runCommands_cons h (result_succeed u out)

theorem runCommands_setiv (hs : Configured s a v.length) :
    runCommands [commandOf .setiv v] s =
      .next (((s.accept (commandOf .setiv v) s.commands).loadIv v).succeed []) :=
  runCommands_of_step (step_setiv (s := s.issueFirst (commandOf .setiv v)) rfl ⟨hs.cfgd, hs.alg, hs.blockSize⟩)

/-- GENIV returns what it draws and keeps every register (R126). -/
theorem runCommands_geniv (s : State) (n : BitVec 12) : ∃ u : State,
    runCommands [commandOf (.geniv n) []] s = .next (u.succeed (s.drawn n.toNat)) ∧ SameRegisters s u :=
  ⟨_, runCommands_of_step (step_geniv rfl), rfl, rfl, rfl, rfl, rfl, rfl, rfl, rfl, rfl⟩

/-- The commands both constructions begin with: CFG and INIT. -/
theorem runCommands_cfg_init (hkey : marsKeyOk key = true) : ∃ u : State,
    runCommands (commandOf (configOf .mars (.chained m) p) [] :: commandOf .init key :: cs) s =
      runCommands cs (u.succeed []) ∧
    Configured u .mars 16 ∧ u.inited = true ∧ u.k = some (marsExpand key) ∧ u.mode = some m ∧ u.pad = some p := by
  refine ⟨_, (runCommands_of_step (step_cfg_mars rfl)).trans (runCommands_of_step (step_init_mars rfl ?_ hkey)), ?_⟩
  · exact ⟨rfl, rfl, rfl⟩
  · exact ⟨⟨rfl, rfl, rfl⟩, rfl, rfl, rfl, rfl⟩

theorem runCall_construct {iv : Bytes} (hkey : marsKeyOk key = true) (hiv : iv.length = 16) :
    ∃ t, runCall (.construct .mars (.chained m) p key iv) s = .ok (.next t) ∧
      MessageReady t .mars 16 (marsCipher (marsExpand key)) m p (if m = .ecb then [] else iv) := by
  obtain ⟨u, hrun, ⟨hc, ha, hbs⟩, hn, hk, hm, hp⟩ :=
    runCommands_cfg_init (s := s) (m := m) (p := p) (cs := [commandOf .setiv iv]) hkey
  have loaded := runCommands_setiv (s := u.succeed []) (configured_mars hc ha hiv)
  exact ⟨_, runCall_of_noFollowing rfl (hrun.trans loaded) rfl,
    messageReady_mars ⟨hc, ha, hbs⟩ hn hk hm hp fun _ => ⟨rfl, rfl⟩⟩

theorem runCall_constructEcbNoIv (hkey : marsKeyOk key = true) :
    ∃ t, runCall (.constructEcbNoIv .mars p key) s = .ok (.next t) ∧
      MessageReady t .mars 16 (marsCipher (marsExpand key)) .ecb p [] := by
  obtain ⟨u, hrun, ⟨hc, ha, hbs⟩, hn, hk, hm, hp⟩ := runCommands_cfg_init (s := s) (m := .ecb) (p := p) (cs := []) hkey
  exact ⟨_, runCall_of_noFollowing rfl hrun rfl,
    messageReady_mars (v := []) ⟨hc, ha, hbs⟩ hn hk hm hp fun h => absurd rfl h⟩

/-- The IV helper, asked to load what it draws, loads the bytes it returns where it is not asked to (R88; log 6). -/
theorem runCall_generateIv {n : BitVec 12} (hs : Configured s a n.toNat) :
    ∃ u v t, runCall (.generateIv n false) s = .ok (.next u) ∧ u.response = some ⟨okCode, v⟩ ∧ u.iv = s.iv ∧
      runCall (.generateIv n true) s = .ok (.next t) ∧ t.ivv = true ∧ t.iv = some v := by
  obtain ⟨hc, ha, hbs⟩ := hs
  obtain ⟨u, drawn, same⟩ := runCommands_geniv s n
  have loaded := runCommands_setiv (s := u.succeed (s.drawn n.toNat)) (v := s.drawn n.toNat)
    ⟨same.cfgd.trans hc, same.alg.trans ha, by rwa [drawn_length]⟩
  exact ⟨_, s.drawn n.toNat, _, runCall_of_noFollowing rfl drawn rfl, rfl, same.iv,
    (runCall_eq rfl drawn rfl).trans (congrArg _ loaded), rfl, rfl⟩

/-- Settles O60: either order of the commands in the host's list, the two constructions and the IV helper. -/
theorem initialisationOrderReadiesTheEngine : Obligations.InitialisationOrderReadiesTheEngine :=
  ⟨fun _ _ _ _ _ _ _ horder hcs hkey hiv => run_initialisation horder hcs hkey hiv,
    fun _ _ _ _ _ hkey hiv => runCall_construct hkey hiv, fun _ _ _ hkey => runCall_constructEcbNoIv hkey,
    fun _ _ _ hs => runCall_generateIv hs⟩

end Sys2Proof.Machine
end
